-- ==== Sys2Proof/Word.lean ====
section
/-! DEFINITION. The word types of the varint codec core: the widths of its fields (R5 to R7, R21, R22, R60), and nothing else. -/

namespace Sys2Proof

/-- One byte of a window: bits 7..0, bit 7 the continuation bit and bits 6..0 the payload (R9, R42). -/
abbrev Byte := BitVec 8

/-- A W-bit unsigned value, W = 128 (R5, R11): VALUE_IN and VALUE_OUT. -/
abbrev Value := BitVec 128

/-- An LW-bit count, LW = 5 (R7): AVAIL_IN and LEN_OUT. -/
abbrev Count := BitVec 5

/-- A MAX_BYTES-byte window, 8 × 19 = 152 bits (R21, R22): BYTES_IN and BYTES_OUT. Byte i is bits 8i+7 .. 8i (R43). -/
abbrev Window := BitVec 152

/-- A two-bit code: OP (R62) and STATUS (R68). -/
abbrev Code := BitVec 2

/-- A whole request or response as one number: 2 + LW + W + 8 × MAX_BYTES = 287 bits (R60, R61). -/
abbrev Bundle := BitVec 287

end Sys2Proof
end

