-- ==== Sys2Proof/Config.lean ====
section
/-! DEFINITION. What is fixed when the hardware is built (R5 to R7, R26), and the values the spec leaves open: the latencies (R8), the contents of REQ and RSP after a reset edge (R31, I12) and the host's SIGNED_CAST (R146). An open value is a constant with no body. -/

namespace Sys2Proof.Config

/-- W, the value width in bits (R5), fixed at this hardware's (DESIGN CHOICE, safe, log entry 10). -/
def valueWidth : Nat := 128

/-- MAX_BYTES = ceil(W / 7), the longest encoding in bytes (R6). -/
def maxBytes : Nat := (valueWidth + 6) / 7

/-- LW = floor(log2 MAX_BYTES) + 1, the width of the count fields (R7). -/
def countWidth : Nat := Nat.log2 maxBytes + 1

/-- LAT_ENCODE less one, for the draw of that number (R8: OPEN, at least 1, finite, may differ per request). The reserved operation uses it too (R185, D31). Free value (DESIGN CHOICE of its form, safe): log entry 1. -/
opaque latEncodeExtra : Nat → Nat

/-- LAT_DECODE less one (R8). Free value (DESIGN CHOICE of its form, safe): log entry 1. -/
opaque latDecodeExtra : Nat → Nat

/-- LAT_PEEK less one (R8). Free value (DESIGN CHOICE of its form, safe): log entry 1. -/
opaque latPeekExtra : Nat → Nat

/-- The contents of REQ after a reset edge, which R31 leaves unspecified. Free value (DESIGN CHOICE of its form, safe): log entry 2. -/
opaque unspecifiedReq : Nat → Bundle

/-- The contents of RSP after a reset edge, which R31 leaves unspecified. Free value (DESIGN CHOICE of its form, safe): log entry 2. -/
opaque unspecifiedRsp : Nat → Bundle

/-- The working state after a reset edge, which R31 leaves unspecified. Free value (DESIGN CHOICE of its form, safe): log entry 2. -/
opaque unspecifiedWait : Nat → Nat

/-- The two readings of a signed caller value that R146 names. -/
inductive SignedCast where
  /-- The k-bit two's-complement pattern is zero-extended to W bits. -/
  | zeroExtend
  /-- The k-bit two's-complement pattern is sign-extended to W bits. -/
  | signExtend
deriving DecidableEq, Repr, Inhabited

/-- SIGNED_CAST, the host parameter that the spec leaves OPEN (R146, D28). Free value (DESIGN CHOICE of its form, safe): log entry 3. -/
opaque signedCast : SignedCast

end Sys2Proof.Config
end

