-- ==== Sys2Proof/Syntax.lean ====
section
/-! DEFINITION. The operation set (R62), one constructor for each row of spec/opcode_table.json. The request plays the role of the instruction (R51); an instruction carries every field of its request, the fields that its operation ignores (R65) among them, so that no bit of a request is lost (DESIGN CHOICE, safe, log entry 13). -/

namespace Sys2Proof

/-- A request with its OP field decoded (R60, R62). The arguments are AVAIL_IN, VALUE_IN and BYTES_IN. -/
inductive Instr where
  /-- OP = 0b00: pack VALUE_IN into its canonical byte sequence (R80). -/
  | encode (avail : Count) (value : Value) (bytes : Window)
  /-- OP = 0b01: parse the encoding at the start of the window (R100). -/
  | decode (avail : Count) (value : Value) (bytes : Window)
  /-- OP = 0b10: find the length of the encoding at the start of the window (R120). -/
  | peek (avail : Count) (value : Value) (bytes : Window)
  /-- OP = 0b11, the reserved operation, written RSVD (R67). -/
  | rsvd (avail : Count) (value : Value) (bytes : Window)
deriving DecidableEq, Repr

end Sys2Proof
end

