-- ==== Sys2Proof/WellFormed.lean ====
section
/-! DEFINITION. Which written requests are well formed (R75). No bit pattern of a request is illegal (R74), and the fields of Instr have exactly the widths of the request's fields, so every Instr is a legal request; the limits that the spec does state are those of the written form of a request, and they are checked here. -/

namespace Sys2Proof

/-- A request as R75 writes it: `ENCODE v`, `DECODE [b0, ...]`, `DECODE [b0, ...], avail=a`, the same two for PEEK, and `RSVD`. -/
inductive RequestText where
  | encode (v : Nat)
  | decode (bytes : List Byte) (avail : Option Nat)
  | peek (bytes : List Byte) (avail : Option Nat)
  | rsvd
deriving DecidableEq, Repr

/-- A list of window bytes is not longer than MAX_BYTES (R75: "A list longer than MAX_BYTES is not allowed"). -/
def bytesFit (bytes : List Byte) : Bool := bytes.length ≤ Config.maxBytes

/-- A written count is below 2^LW (R75: "`avail=<a>` allows 0 ≤ a < 2^LW"). -/
def availFits (avail : Option Nat) : Bool := avail.all (· < 2 ^ Config.countWidth)

/-- A written value is below 2^W (R75: "a decimal or `0x` hexadecimal natural below 2^W"). -/
def valueFits (v : Nat) : Bool := v < 2 ^ Config.valueWidth

/-- The written request keeps the limits of R75. -/
def RequestText.wellFormed : RequestText → Bool
  | .encode v => valueFits v
  | .decode bytes avail => bytesFit bytes && availFits avail
  | .peek bytes avail => bytesFit bytes && availFits avail
  | .rsvd => true

end Sys2Proof
end

