-- ==== Sys2Proof/Decode.lean ====
section
/-! DEFINITION. The request format (R60), its decoder (R62, total by R74) and encoder, the opcode table, and the assembler of R75. Nothing here says what an operation does. -/

namespace Sys2Proof

/-- The four fields of a request (R21, R60). -/
structure Request where
  op : Code
  availIn : Count
  valueIn : Value
  bytesIn : Window
deriving DecidableEq, Repr

/-- The request bundle (R60): OP in bits 1..0, AVAIL_IN in 6..2, VALUE_IN in 134..7, BYTES_IN in 286..135. -/
def Request.pack (r : Request) : Bundle := r.bytesIn ++ (r.valueIn ++ (r.availIn ++ r.op))

/-- The fields of a request bundle (R60). -/
def Request.unpack (b : Bundle) : Request where
  op := b.extractLsb' 0 2
  availIn := b.extractLsb' 2 5
  valueIn := b.extractLsb' 7 128
  bytesIn := b.extractLsb' 135 152

/-- The fields of a request bundle written as a number (R60). -/
def Request.ofNumber (w : Nat) : Request where
  op := BitVec.ofNat 2 w
  availIn := BitVec.ofNat 5 (w >>> 2)
  valueIn := BitVec.ofNat 128 (w >>> 7)
  bytesIn := BitVec.ofNat 152 (w >>> 135)

/-- The OP value of ENCODE (R62). -/
def opEncode : Code := 0b00

/-- The OP value of DECODE (R62). -/
def opDecode : Code := 0b01

/-- The OP value of PEEK (R62). -/
def opPeek : Code := 0b10

/-- The reserved OP value (R62, R67). -/
def opReserved : Code := 0b11

/-- Read the operation of a request (R62): every value of OP selects exactly one row, and no request is rejected (R74). -/
def decodeRequest (r : Request) : Instr :=
  if r.op = opEncode then .encode r.availIn r.valueIn r.bytesIn
  else if r.op = opDecode then .decode r.availIn r.valueIn r.bytesIn
  else if r.op = opPeek then .peek r.availIn r.valueIn r.bytesIn
  else .rsvd r.availIn r.valueIn r.bytesIn

/-- The decoder of a whole request bundle (R60, R62). -/
def decodeBundle (b : Bundle) : Instr := decodeRequest (Request.unpack b)

/-- Why a number is no request. -/
inductive DecodeReject where
  /-- The number has a bit at position 287 or above: a request bundle is 287 bits (R60). Raised by decodeNumber; safe. -/
  | exceedsBundle
deriving DecidableEq, Repr

/-- Decode a request written as one number (R60: "The bundle is how a model or a test writes a request as one number"). -/
def decodeNumber (w : Nat) : Except DecodeReject Instr :=
  if w >>> 287 = 0 then .ok (decodeRequest (Request.ofNumber w)) else .error .exceedsBundle

/-- The number a byte sequence stands for, byte 0 lowest: Σ byte_i << 8i (R43). -/
def bytesToNat : List Byte → Nat
  | [] => 0
  | b :: bs => b.toNat + 256 * bytesToNat bs

/-- Decode a request laid out as bytes, byte 0 holding its bits 7..0; bytes that are not given are zero (DESIGN CHOICE, safe, log entry 14). -/
def decodeBytes (bs : List Byte) : Except DecodeReject Instr := decodeNumber (bytesToNat bs)

/-- The instruction the decoder reads from an opcode-table word: the low nbits bits of w, every higher bit of the request zero (log entry 14). -/
def decodeTableWord (nbits w : Nat) : Option Instr := (decodeNumber (w % 2 ^ nbits)).toOption

/-- The OP value of an instruction (R62). -/
def Instr.op : Instr → Code
  | .encode .. => opEncode
  | .decode .. => opDecode
  | .peek .. => opPeek
  | .rsvd .. => opReserved

/-- The request that an instruction stands for (R62). -/
def Instr.request : Instr → Request
  | .encode a v b => ⟨opEncode, a, v, b⟩
  | .decode a v b => ⟨opDecode, a, v, b⟩
  | .peek a v b => ⟨opPeek, a, v, b⟩
  | .rsvd a v b => ⟨opReserved, a, v, b⟩

/-- The encoder: the request bundle of an instruction (R60, R62). -/
def encode (i : Instr) : Bundle := i.request.pack

/-- One row of spec/opcode_table.json: the row matches a bundle when the bundle under the mask is the pattern. -/
structure OpcodeRow where
  mnemonic : String
  pattern : Nat
  mask : Nat
deriving DecidableEq, Repr

/-- The opcode table, in its order (R62). -/
def opcodeTable : List OpcodeRow :=
  [⟨"ENCODE", 0x0, 0x3⟩, ⟨"DECODE", 0x1, 0x3⟩, ⟨"PEEK", 0x2, 0x3⟩, ⟨"RSVD", 0x3, 0x3⟩]

/-- The row matches the bundle. -/
def OpcodeRow.selects (row : OpcodeRow) (b : Bundle) : Bool := b.toNat &&& row.mask == row.pattern

/-- The mnemonic of an instruction's row. -/
def Instr.mnemonic : Instr → String
  | .encode .. => "ENCODE"
  | .decode .. => "DECODE"
  | .peek .. => "PEEK"
  | .rsvd .. => "RSVD"

/-- A window holding a byte sequence from byte 0, all further bytes 0x00 (R43, R75). Bytes past the window are lost. -/
def windowOfBytes (bs : List Byte) : Window := BitVec.ofNat 152 (bytesToNat bs)

/-- A count field holding a natural number below 2^LW. -/
def countOf (n : Nat) : Count := BitVec.ofNat 5 n

/-- Assemble a written request (R75): fields not written are 0, AVAIL_IN is the list's length unless `avail=` gives it. An ill-formed request is not assembled. -/
def RequestText.assemble (t : RequestText) : Option Instr :=
  if t.wellFormed then
    some (match t with
      | .encode v => .encode 0 (BitVec.ofNat 128 v) 0
      | .decode bytes avail => .decode (countOf (avail.getD bytes.length)) 0 (windowOfBytes bytes)
      | .peek bytes avail => .peek (countOf (avail.getD bytes.length)) 0 (windowOfBytes bytes)
      | .rsvd => .rsvd 0 0 0)
  else none

end Sys2Proof
end

