-- ==== Sys2Proof/Machine/State.lean ====
section
/-! DEFINITION. The state (R20 to R23), the inputs at a clock edge (R30), the reasons to stop, and the state after reset (R31). State is plain data. -/

namespace Sys2Proof.Machine

/-- RSP, the response register (R22). -/
structure Response where
  status : Code
  lenOut : Count
  valueOut : Value
  bytesOut : Window
deriving DecidableEq, Repr

/-- PHASE (R23). -/
inductive Phase where
  /-- No transaction: a request may be accepted. -/
  | idle
  /-- A request is accepted and its response is not yet computed. -/
  | busy
  /-- The response is in RSP and is being presented. -/
  | done
deriving DecidableEq, Repr

/-- What the outside drives on the input ports at one rising edge of clk (R30), and whether the host reads the response outputs in the cycle that the edge ends (R188). -/
structure Edge where
  /-- rst, the synchronous reset (R180). -/
  rst : Bool
  /-- req_valid. -/
  reqValid : Bool
  /-- req_op, req_avail, req_value and req_bytes. -/
  request : Request
  /-- rsp_ready. -/
  rspReady : Bool
  /-- The host looks at rsp_status, rsp_len, rsp_value and rsp_bytes. -/
  hostReads : Bool
deriving DecidableEq, Repr

/-- An edge at which every input is 0 and the host reads nothing. -/
def Edge.quiet : Edge := ⟨false, false, ⟨0, 0, 0, 0⟩, false, false⟩

/-- A completed transaction as the host sees it: the request it sent and the response it took (R49, R161). -/
structure Transaction where
  req : Request
  rsp : Response
deriving DecidableEq, Repr

/-- The block's state (REQ, RSP, PHASE), the edges that the outside has still to drive, and the host's record. -/
structure State where
  /-- PHASE (R23). -/
  phase : Phase
  /-- REQ (R21). -/
  req : Request
  /-- RSP (R22). -/
  rsp : Response
  /-- Working state (R28): how many edges of a BUSY transaction are still to pass before its completing edge (R185). Log entry 7. -/
  wait : Nat
  /-- The model's own: which draw of the open values of Config comes next. Log entries 1 and 2. -/
  draws : Nat
  /-- What the outside drives at the coming edges, the next edge first; after the last one every input is 0 (DESIGN CHOICE, unsafe, log entry 5). -/
  inputs : List Edge
  /-- The model's own record: the requests accepted so far, the oldest first (R183). Log entry 8. -/
  accepted : List Request
  /-- The model's own record: the transactions whose response the host has taken, the oldest first (R186). Log entry 8. -/
  delivered : List Transaction
deriving DecidableEq, Repr

/-- Why a step can fault. The block itself never faults (R169); both reasons are moves of the host that the spec says a host model faults on. -/
inductive Fault where
  /-- The host reads the response outputs while rsp_valid = 0, where they hold no value (R29, R188). Raised by step; safe: the spec names the fault (log entry 9). -/
  | responseReadOutsideDone
  /-- The host reads STATUS = 0b11, which no operation writes (R68). Raised by step; safe: the spec names the fault (log entry 9). -/
  | statusNeverProduced
deriving DecidableEq, Repr

/-- Why an instruction can be refused. The block refuses nothing (R169). -/
inductive Refusal where
  /-- The instruction has no meaning in this model. Raised by a refused arm of exec; safe. No arm raises it. -/
  | notModelled (mnemonic : String)
deriving DecidableEq, Repr

/-- The state after reset (R31, R182): PHASE = IDLE. R31 leaves REQ, RSP and the working state unspecified; their zeros are the model's (DESIGN CHOICE, unsafe, log entry 4). No input edge is listed and the host's record is empty (DESIGN CHOICE, unsafe, log entry 5). -/
def State.reset : State where
  phase := .idle
  req := ⟨0, 0, 0, 0⟩
  rsp := ⟨0, 0, 0, 0⟩
  wait := 0
  draws := 0
  inputs := []
  accepted := []
  delivered := []

end Sys2Proof.Machine
end

