-- ==== Sys2Proof/Machine/Flags.lean ====
section
/-! DEFINITION. STATUS, the block's only flag state (R25), its codes (R68), and what a host makes of it (R105, R189). -/

namespace Sys2Proof.Machine

/-- STATUS = 0b00: the operation succeeded (R68). -/
def statusOk : Code := 0b00

/-- STATUS = 0b01: no terminating byte among the bytes examined (R68, R103, R122). -/
def statusInvalidSequence : Code := 0b01

/-- STATUS = 0b10: the request's OP is reserved (R67, R68). -/
def statusReservedOp : Code := 0b10

/-- STATUS = 0b11: no operation writes it, and a host that reads it faults (R68). -/
def statusNever : Code := 0b11

end Sys2Proof.Machine
end

