-- ==== Sys2Proof/Machine/Operands.lean ====
section
/-! DEFINITION. Operand assembly (R63, R64), the response bundle (R61), the two byte windows (R40, R43), and the two parts of a wire byte (R42). -/

namespace Sys2Proof.Machine

/-- The response bundle (R61): STATUS in bits 1..0, LEN_OUT in 6..2, VALUE_OUT in 134..7, BYTES_OUT in 286..135. -/
def Response.pack (r : Response) : Bundle := r.bytesOut ++ (r.valueOut ++ (r.lenOut ++ r.status))

/-- The fields of a response bundle (R61). -/
def Response.unpack (b : Bundle) : Response where
  status := b.extractLsb' 0 2
  lenOut := b.extractLsb' 2 5
  valueOut := b.extractLsb' 7 128
  bytesOut := b.extractLsb' 135 152

/-- V, the value an ENCODE request carries, as a natural number (R63). -/
def magnitude (value : Value) : Nat := value.toNat

/-- n = min(AVAIL_IN, MAX_BYTES), the number of window bytes that DECODE and PEEK may examine (R64). -/
def scanLimit (avail : Count) : Nat := min avail.toNat Config.maxBytes

/-- MemRead(i, 1): byte i of a window, its bits 8i+7 .. 8i (R10, R43). -/
def byteAt (w : Window) (i : Nat) : Byte := w.extractLsb' (8 * i) 8

/-- MemWrite(i, 1, b): the window with byte i set to b (R10, R43). -/
def setByte (w : Window) (i : Nat) (b : Byte) : Window :=
  (w &&& ~~~(BitVec.ofNat 152 0xff <<< (8 * i))) ||| (b.zeroExtend 152 <<< (8 * i))

/-- All bytes of a window, byte 0 first (R40). -/
def windowBytes (w : Window) : List Byte := (List.range Config.maxBytes).map (byteAt w)

/-- The continuation bit of a wire byte, its bit 7 (R42). -/
def continues (b : Byte) : Bool := b.getLsbD 7

/-- The payload of a wire byte, its bits 6..0, as a natural number (R42). -/
def payload (b : Byte) : Nat := (b &&& 0x7f).toNat

/-- A wire byte that more bytes follow: the low seven bits of v under a set continuation bit (R80). -/
def continuationByte (v : Nat) : Byte := BitVec.ofNat 8 ((v &&& 0x7f) ||| 0x80)

/-- The contribution of byte i to the accumulator: its payload shifted to value bit 7i, the bits at W and above dropped (R100, R101). -/
def payloadAt (b : Byte) (i : Nat) : Value := BitVec.ofNat 128 (payload b <<< (7 * i))

end Sys2Proof.Machine
end

