-- ==== Sys2Proof/Machine/Ops.lean ====
section
/-! DEFINITION. The operations that the instructions and the step share: the responses with their unproduced fields zero (R66), raising an error (R67, R105, R122), the port outputs (R23, R29, R30), and the four moves of the transaction-level model (R191): Accept, Complete, Deliver, Reset. -/

namespace Sys2Proof.Machine

/-- An error response: STATUS is the code and every other field is 0 (R66). This is all that raising an error does (R160). -/
def errorResponse (code : Code) : Response := ⟨code, 0, 0, 0⟩

/-- raise InvalidSequence() (R105, R122). -/
def raiseInvalidSequence : Response := errorResponse statusInvalidSequence

/-- raise ReservedOp() (R67). -/
def raiseReservedOp : Response := errorResponse statusReservedOp

/-- The response of a successful ENCODE (R66, R80): the encoding and its length. -/
def encodedResponse (len : Nat) (bytes : Window) : Response := ⟨statusOk, countOf len, 0, bytes⟩

/-- The response of a successful DECODE (R66, R100): the value and the bytes it took. -/
def decodedResponse (len : Nat) (value : Value) : Response := ⟨statusOk, countOf len, value, 0⟩

/-- The response of a successful PEEK (R66, R120): the length. -/
def lengthResponse (len : Nat) : Response := ⟨statusOk, countOf len, 0, 0⟩

/-- The number of edges beyond the first that the completion of an instruction takes: its LAT less one, drawn anew for each request (R8, R185, D31). -/
def latencyExtra (i : Instr) (draw : Nat) : Nat :=
  match i with
  | .encode .. => Config.latEncodeExtra draw
  | .decode .. => Config.latDecodeExtra draw
  | .peek .. => Config.latPeekExtra draw
  | .rsvd .. => Config.latEncodeExtra draw

/-- LAT of an instruction, in edges from acceptance to completion (R8, R185); at least 1. -/
def latency (i : Instr) (draw : Nat) : Nat := latencyExtra i draw + 1

/-- What the outside drives at the coming edge; a quiet edge where none is listed (log entry 5). -/
def State.edge (s : State) : Edge := s.inputs.headD Edge.quiet

/-- The coming edge has passed. -/
def State.advance (s : State) : State := { s with inputs := s.inputs.tail }

/-- req_ready = (PHASE == IDLE and rst == 0) (R23). -/
def State.reqReady (s : State) : Bool := s.phase == .idle && !s.edge.rst

/-- rsp_valid = (PHASE == DONE and rst == 0) (R23). -/
def State.rspValid (s : State) : Bool := s.phase == .done && !s.edge.rst

/-- The data outputs of the response port: they carry RSP while rsp_valid = 1 and the model gives them no value at any other time (R29, R188). -/
def State.rspOutputs (s : State) : Option Response := if s.rspValid then some s.rsp else none

/-- The fault of a host that reads the response outputs where they hold no value (R29, R188), or reads STATUS = 0b11 (R68). A read while PHASE = DONE and rst = 1 is one where rsp_valid = 0 (DEDUCED, safe, log entry 9). -/
def State.readFault (s : State) : Option Fault :=
  if s.edge.hostReads then
    match s.rspOutputs with
    | none => some .responseReadOutsideDone
    | some r => if r.status = statusNever then some .statusNeverProduced else none
  else none

/-- Accept(req): IDLE to BUSY, REQ <- req (R183, R191). The latency of the transaction is drawn here (R8; log entry 1). -/
def State.accept (s : State) (r : Request) : State :=
  { s with
    phase := .busy
    req := r
    wait := latencyExtra (decodeRequest r) s.draws
    draws := s.draws + 1
    accepted := s.accepted ++ [r] }

/-- Complete: BUSY to DONE, RSP <- Op(REQ) (R185, R191). -/
def State.complete (s : State) (r : Response) : State := { s with phase := .done, rsp := r }

/-- Deliver: DONE to IDLE, the host receives RSP (R186, R191). -/
def State.deliver (s : State) : State :=
  { s with phase := .idle, delivered := s.delivered ++ [⟨s.req, s.rsp⟩] }

/-- Reset at an edge (R180, R181): IDLE from any phase, the transaction dropped, REQ, RSP and the working state unspecified, so they take free values (R31; log entry 2). -/
def State.resetEdge (s : State) : State :=
  { s with
    phase := .idle
    req := Request.unpack (Config.unspecifiedReq s.draws)
    rsp := Response.unpack (Config.unspecifiedRsp s.draws)
    wait := Config.unspecifiedWait s.draws
    draws := s.draws + 1 }

/-- An edge in IDLE with rst = 0 (R183). -/
def State.idleEdge (s : State) : State :=
  if s.edge.reqValid then s.advance.accept s.edge.request else s.advance

/-- An edge in BUSY with rst = 0 that is not the completing one (R185): only the working state moves. -/
def State.busyEdge (s : State) (left : Nat) : State := { s.advance with wait := left }

/-- An edge in DONE with rst = 0 (R186). -/
def State.doneEdge (s : State) : State :=
  if s.edge.rspReady then s.advance.deliver else s.advance

/-- The instruction that a BUSY block runs: the decoded content of REQ, latched at acceptance (R51, R62). -/
def State.latched (s : State) : Instr := decodeRequest s.req

end Sys2Proof.Machine
end

