-- ==== Sys2Proof/Machine/Decoder.lean ====
section
/-! DEFINITION. DECODE, done by the varint_decoder unit (R100 to R107). -/

namespace Sys2Proof.Machine

/-- The loop of R100 from index i, with the given number of bytes still to examine and the accumulator so far: it answers the length and the value at the terminating byte, or nothing where there is none (R103). -/
def decodeScan (w : Window) : Nat → Nat → Value → Option (Nat × Value)
  | 0, _, _ => none
  | left + 1, i, acc =>
    let b := byteAt w i
    let acc := acc ||| payloadAt b i
    if continues b then decodeScan w left (i + 1) acc else some (i + 1, acc)

/-- Op of a DECODE request (R100, R105). -/
def decodeResponse (avail : Count) (bytes : Window) : Response :=
  match decodeScan bytes (scanLimit avail) 0 0 with
  | some (len, value) => decodedResponse len value
  | none => raiseInvalidSequence

/-- DECODE (R100). VALUE_IN is ignored (R65, R107). -/
def execDecode (avail : Count) (_value : Value) (bytes : Window) (s : State) : Host.Outcome State Fault Refusal :=
  .next (s.complete (decodeResponse avail bytes))

end Sys2Proof.Machine
end

