-- ==== Sys2Proof/Machine/Encoder.lean ====
section
/-! DEFINITION. ENCODE, done by the varint_encoder unit (R80 to R85). -/

namespace Sys2Proof.Machine

/-- The loop of R80 from length counter k: while v ≥ 128 write a continuation byte and shift v right by seven; then write v itself. It answers the window and the final counter. The first argument bounds the iterations, which R80 shows to be at most MAX_BYTES − 1. -/
def packLoop : Nat → Nat → Nat → Window → Window × Nat
  | 0, v, k, w => (setByte w k (BitVec.ofNat 8 v), k + 1)
  | fuel + 1, v, k, w =>
    if v ≥ 128 then packLoop fuel (v >>> 7) (k + 1) (setByte w k (continuationByte v))
    else (setByte w k (BitVec.ofNat 8 v), k + 1)

/-- Op of an ENCODE request (R80): all of the window is written, from an all-zero one (R45). -/
def encodeResponse (value : Value) : Response :=
  let packed := packLoop (Config.maxBytes - 1) (magnitude value) 0 0
  encodedResponse packed.2 packed.1

/-- ENCODE (R80). AVAIL_IN and BYTES_IN are ignored (R65, R85). -/
def execEncode (_avail : Count) (value : Value) (_bytes : Window) (s : State) : Host.Outcome State Fault Refusal :=
  .next (s.complete (encodeResponse value))

end Sys2Proof.Machine
end

