-- ==== Sys2Proof/Machine/LengthPredictor.lean ====
section
/-! DEFINITION. PEEK, done by the varint_length_predictor unit (R120 to R125). -/

namespace Sys2Proof.Machine

/-- The scan of R120 from index i, with the given number of bytes still to examine: the 1-based position of the first byte whose continuation bit is clear. It reads only bit 7 of each byte (R121). -/
def peekScan (w : Window) : Nat → Nat → Option Nat
  | 0, _ => none
  | left + 1, i => if continues (byteAt w i) then peekScan w left (i + 1) else some (i + 1)

/-- Op of a PEEK request (R120, R122). -/
def peekResponse (avail : Count) (bytes : Window) : Response :=
  match peekScan bytes (scanLimit avail) 0 with
  | some len => lengthResponse len
  | none => raiseInvalidSequence

/-- PEEK (R120). VALUE_IN is ignored (R65). -/
def execPeek (avail : Count) (_value : Value) (bytes : Window) (s : State) : Host.Outcome State Fault Refusal :=
  .next (s.complete (peekResponse avail bytes))

end Sys2Proof.Machine
end

