-- ==== Sys2Proof/Machine/Reserved.lean ====
section
/-! DEFINITION. The reserved operation, OP = 0b11 (R67). -/

namespace Sys2Proof.Machine

/-- Op of a request with the reserved OP (R67). -/
def reservedResponse : Response := raiseReservedOp

/-- RSVD (R67): it completes like any other operation and reads no field other than OP. -/
def execRsvd (_avail : Count) (_value : Value) (_bytes : Window) (s : State) : Host.Outcome State Fault Refusal :=
  .next (s.complete reservedResponse)

end Sys2Proof.Machine
end

