-- ==== Sys2Proof/Machine/Dispatch.lean ====
section
/-! DEFINITION. Which meaning each operation has. exec is the completing step of a transaction (R185): RSP <- Op(REQ) and PHASE <- DONE. -/

namespace Sys2Proof.Machine

def exec (i : Instr) (s : State) : Host.Outcome State Fault Refusal :=
  match i with
  | .encode avail value bytes => Sys2Proof.Machine.execEncode avail value bytes s
  | .decode avail value bytes => Sys2Proof.Machine.execDecode avail value bytes s
  | .peek avail value bytes => Sys2Proof.Machine.execPeek avail value bytes s
  | .rsvd avail value bytes => Sys2Proof.Machine.execRsvd avail value bytes s

end Sys2Proof.Machine
end

