-- ==== Sys2Proof/Machine/Operation.lean ====
section
/-! DEFINITION. Op, the pure function from a request to its response (R27), read off the meanings. -/

namespace Sys2Proof.Machine

/-- Op of an instruction (R27): by R62 each operation has its own response. -/
def respondTo : Instr → Response
  | .encode _ value _ => encodeResponse value
  | .decode avail _ bytes => decodeResponse avail bytes
  | .peek avail _ bytes => peekResponse avail bytes
  | .rsvd _ _ _ => reservedResponse

/-- Op(REQ), the response to a request (R27, R49). -/
def respond (r : Request) : Response := respondTo (decodeRequest r)

end Sys2Proof.Machine
end

