-- ==== Sys2Proof/Machine/Step.lean ====
section
/-! DEFINITION. One step is one rising edge of clk (R180 to R187), and how a request is placed where the next step runs it. -/

namespace Sys2Proof.Machine

/-- One rising edge of clk: the phase transition table of 70_reset_and_hazards.md. A host that reads the response outputs where it may not faults first (R188; log entry 9). -/
def step (s : State) : Host.Outcome State Fault Refusal :=
  match s.readFault with
  | some f => .fault f
  | none =>
    if s.edge.rst then .next s.advance.resetEdge
    else
      match s.phase with
      | .idle => .next s.idleEdge
      | .busy =>
        match s.wait with
        | 0 => exec s.latched s.advance
        | left + 1 => .next (s.busyEdge left)
      | .done => .next s.doneEdge

/-- The state in which the low nbits bits of w, every higher bit 0, are the accepted request and the coming edge, whose inputs are all 0, is its completing edge (R183, R185). Log entry 6 says how a request comes to be accepted from reset. -/
def State.withFetchWord (s : State) (nbits w : Nat) : State :=
  let r := Request.ofNumber (w % 2 ^ nbits)
  { s with
    phase := .busy
    req := r
    wait := 0
    inputs := Edge.quiet :: s.inputs
    accepted := s.accepted ++ [r] }

end Sys2Proof.Machine
end

