-- ==== Sys2Proof/Machine/WireFormat.lean ====
section
/-! DEFINITION. The wire format as a format, apart from the units that read and write it (R69 to R73, R81), and how a caller's slice is presented to the block (R47). Safety conditions and claims are stated in these terms; the units do not use them. -/

namespace Sys2Proof.Machine

/-- A well-formed encoding (R69): at least one byte, bit 7 set on every byte but the last and clear on the last. -/
def isEncoding : List Byte → Bool
  | [] => false
  | [b] => !continues b
  | b :: c :: rest => continues b && isEncoding (c :: rest)

/-- The value of the bytes from index i on: Σ (b_i & 0x7f) << (7*i) (R69). -/
def valueFrom : Nat → List Byte → Nat
  | _, [] => 0
  | i, b :: rest => (payload b <<< (7 * i)) + valueFrom (i + 1) rest

/-- The value of an encoding, as a natural number of any size (R69). -/
def encodingValue (bs : List Byte) : Nat := valueFrom 0 bs

/-- The index of the first byte whose bit 7 is clear (R70). -/
def terminator (bs : List Byte) : Option Nat := bs.findIdx? (fun b => !continues b)

/-- The length of the encoding at the start of a byte sequence, found within its first MAX_BYTES bytes (R70, R71). -/
def encodingLength (bs : List Byte) : Option Nat :=
  (terminator (bs.take Config.maxBytes)).map (· + 1)

/-- bitlen(V): 0 for 0 and floor(log2 V) + 1 otherwise (R72). -/
def bitLength (v : Nat) : Nat := if v = 0 then 0 else Nat.log2 v + 1

/-- max(1, ceil(bitlen(V) / 7)), the length of the canonical encoding (R72, R81). -/
def canonicalLength (v : Nat) : Nat := max 1 ((bitLength v + 6) / 7)

/-- byte_i of the canonical encoding of v, in a length of len bytes (R81). -/
def canonicalByte (v len i : Nat) : Byte :=
  BitVec.ofNat 8 (((v >>> (7 * i)) &&& 0x7f) ||| (if i < len - 1 then 0x80 else 0x00))

/-- The canonical encoding of v (R72), by the parallel form of R81. -/
def canonicalBytes (v : Nat) : List Byte :=
  (List.range (canonicalLength v)).map (canonicalByte v (canonicalLength v))

/-- The test of R72 for a well-formed encoding to be minimal: one byte, or a last byte that is not 0x00. -/
def isMinimal (bs : List Byte) : Bool := bs.length == 1 || bs.getLast? != some 0x00

/-- The overflow of R73: length MAX_BYTES and a last payload of 2^(W − 7·(MAX_BYTES − 1)) or more. -/
def overflowsWidth (bs : List Byte) : Bool :=
  bs.length == Config.maxBytes &&
    bs.getLast?.any (fun b => 2 ^ (Config.valueWidth - 7 * (Config.maxBytes - 1)) ≤ payload b)

/-- The count and the window that present a caller's slice (R47): its first MAX_BYTES bytes, and don't-care bytes taken from rest above them. -/
def presentSlice (slice : List Byte) (rest : Window) : Count × Window :=
  let len := min slice.length Config.maxBytes
  (countOf len, windowOfBytes (slice.take len ++ (windowBytes rest).drop len))

end Sys2Proof.Machine
end

