-- ==== Sys2Proof/Machine/HostAdapters.lean ====
section
/-! DEFINITION. The host procedures around the block (R140 to R148), at the level of whole transactions (R191). They are not part of the block (R4 (e)) and the step does not use them (log entry 11). -/

namespace Sys2Proof.Machine

/-- The contents of a stream failure; the host passes it on unchanged (R142, R147, I8). -/
inductive IoError where
  /-- The byte source ended. -/
  | unexpectedEnd
  /-- The source's or the sink's own error. -/
  | other (code : Nat)
deriving DecidableEq, Repr

/-- The two error kinds at the host boundary (R147). -/
inductive HostError where
  /-- The malformed-sequence error. -/
  | invalidSequence
  /-- The input/output error. -/
  | io (e : IoError)
deriving DecidableEq, Repr

/-- What a host procedure returns; a call on a stream that never answers does not return and is stuck: on a source by I9 (DEDUCED, safe, log entry 11), on a sink by the model's choice (DESIGN CHOICE, safe, log entry 18). -/
inductive HostResult (α : Type) where
  | ok (a : α)
  | error (e : HostError)
  | stuck
deriving DecidableEq, Repr

/-- What a blocking byte source does at one single-byte read (R141). -/
inductive ReadEvent where
  | byte (b : Byte)
  | fails (e : IoError)
  | blocks
deriving DecidableEq, Repr

/-- What a sink does at one write call (R144). -/
inductive WriteEvent where
  /-- It takes at most that many bytes: the number is the sink's choice, a parameter (D30, I7), cut to LEN_OUT where it is used, and the bytes it takes are the first ones (DEDUCED, safe, log entry 11). -/
  | takes (count : Nat)
  /-- It fails with e. How many bytes it took before that the spec leaves open: a parameter, cut to LEN_OUT in the same way (DESIGN CHOICE, safe, log entry 17). -/
  | fails (e : IoError) (reached : Nat)
  /-- The write call never returns. R4 (e) calls the writers blocking too, but R144 gives only Ok and Err and I9 speaks of a source only, so the stuck call is the model's choice; how many bytes the sink took before is a parameter, cut to LEN_OUT (DESIGN CHOICE, safe, log entry 18). -/
  | blocks (reached : Nat)
deriving DecidableEq, Repr

/-- How a host reads a response: STATUS first, and an error response has no value (R105, R189). -/
def Response.result (r : Response) : Except Code Response :=
  if r.status = statusOk then .ok r else .error r.status

/-- The response to PEEK over a scratch buffer, AVAIL_IN its length (R141). -/
def peekBuffer (buf : List Byte) : Response := respondTo (.peek (countOf buf.length) 0 (windowOfBytes buf))

/-- The response to DECODE over a scratch buffer, AVAIL_IN its length (R141). -/
def decodeBuffer (buf : List Byte) : Response := respondTo (.decode (countOf buf.length) 0 (windowOfBytes buf))

/-- The end of read_from_stream once PEEK has found the terminating byte (R141): the defensive DECODE. -/
def finishRead (buf : List Byte) : HostResult Value :=
  match (decodeBuffer buf).result with
  | .ok r => .ok r.valueOut
  | .error _ => .error .invalidSequence

/-- The loop of read_from_stream (R141), with at most the given number of reads left. A list of read events that is used up is the end of the input (DEDUCED, safe, log entry 11). It answers the result and what is left unread in the source. -/
def readLoop : Nat → List Byte → List ReadEvent → HostResult Value × List ReadEvent
  | 0, _, source => (.error .invalidSequence, source)
  | _ + 1, _, [] => (.error (.io .unexpectedEnd), [])
  | _ + 1, _, .fails e :: rest => (.error (.io e), rest)
  | _ + 1, _, .blocks :: rest => (.stuck, .blocks :: rest)
  | left + 1, buf, .byte b :: rest =>
    if (peekBuffer (buf ++ [b])).status = statusOk then (finishRead (buf ++ [b]), rest)
    else readLoop left (buf ++ [b]) rest

/-- read_from_stream (R141 to R143): at most MAX_BYTES reads, one byte each. -/
def readFromStream (source : List ReadEvent) : HostResult Value × List ReadEvent :=
  readLoop Config.maxBytes [] source

/-- The exact-length byte view of an ENCODE response: BYTES_OUT bytes 0 .. LEN_OUT − 1 (R140). -/
def encodedView (r : Response) : List Byte := (windowBytes r.bytesOut).take r.lenOut.toNat

/-- write_to_stream (R144): one write call with the encoding. It answers what the host gets, the count the sink accepted or the sink's error, and beside it the bytes that reached the sink. R144 gives only the error when the call fails; that the bytes which had reached the sink by then are a leading part of the encoding, of any length, is the model's choice (DESIGN CHOICE, log entry 17). A sink whose call never returns leaves the host stuck, with any such part of the encoding taken (DESIGN CHOICE, log entry 18). -/
def writeToStream (value : Value) (sink : WriteEvent) : HostResult Nat × List Byte :=
  let view := encodedView (respondTo (.encode 0 value 0))
  match sink with
  | .fails e reached => (.error (.io e), view.take reached)
  | .blocks reached => (.stuck, view.take reached)
  | .takes count => (.ok (min count view.length), view.take count)

/-- zext_W of a k-bit caller value, before ENCODE (R145). -/
def widenCaller (k : Nat) (v : BitVec k) : Value := v.zeroExtend 128

/-- trunc_k of VALUE_OUT, after DECODE (R145). -/
def narrowResult (k : Nat) (r : Response) : BitVec k := r.valueOut.truncate k

/-- A signed k-bit caller value under one reading of SIGNED_CAST (R146). -/
def castSignedBy (cast : Config.SignedCast) (k : Nat) (v : BitVec k) : Value :=
  match cast with
  | .zeroExtend => v.zeroExtend 128
  | .signExtend => v.signExtend 128

/-- A signed k-bit caller value before ENCODE, by the host parameter SIGNED_CAST (R146, D28). -/
def castSigned (k : Nat) (v : BitVec k) : Value := castSignedBy Config.signedCast k v

/-- A response as R75 writes it: `-> STATUS len=.. value=.. bytes=[..]`, a field that R66 makes 0 left out. -/
structure ResponseText where
  status : String
  len : Option Nat
  value : Option Nat
  bytes : Option (List Byte)
deriving DecidableEq, Repr

/-- The name of a STATUS code; the code 0b11 has none (R68). -/
def statusName (c : Code) : Option String :=
  if c = statusOk then some "OK"
  else if c = statusInvalidSequence then some "INVALID_SEQUENCE"
  else if c = statusReservedOp then some "RESERVED_OP"
  else none

/-- Write the response to an operation (R75): what is written depends on the operation and the outcome, as R66 tabulates it. -/
def writtenResponse (i : Instr) (r : Response) : Option ResponseText :=
  (statusName r.status).map fun name =>
    if r.status = statusOk then
      { status := name
        len := some r.lenOut.toNat
        value := match i with
          | .decode .. => some r.valueOut.toNat
          | _ => none
        bytes := match i with
          | .encode .. => some (encodedView r)
          | _ => none }
    else { status := name, len := none, value := none, bytes := none }

end Sys2Proof.Machine
end

