-- ==== Sys2Proof/Safety.lean ====
section
/-! DEFINITION. What a good state is, in the terms that claims use. -/

namespace Sys2Proof.Machine

/-- A legal STATUS: one of the three codes that an operation writes (R25, R68). -/
def legalStatus (c : Code) : Prop := c = statusOk ∨ c = statusInvalidSequence ∨ c = statusReservedOp

/-- A good state: what is presented is Op(REQ) (R27, R49), and the host's record agrees with the order of acceptance (R49). It holds at reset and every step keeps it. -/
structure State.Good (s : State) : Prop where
  /-- The response being presented is Op of the latched request (R27). -/
  presented : s.phase = .done → s.rsp = respond s.req
  /-- Every response the host took was Op of its own request (R49). -/
  answered : ∀ t ∈ s.delivered, t.rsp = respond t.req
  /-- A transaction in flight is the most recently accepted request's (R49). -/
  inFlight : s.phase ≠ .idle → s.accepted.getLast? = some s.req
  /-- Responses were taken in the order of acceptance, each request at most once, and the one in flight not yet (R49, R181). -/
  inOrder : (s.delivered.map Transaction.req).Sublist (if s.phase = .idle then s.accepted else s.accepted.dropLast)

/-- Two states that differ at most in contents which R31 leaves unspecified: REQ outside a transaction, RSP outside DONE, and the working state outside BUSY (R28, R29, R31). -/
structure State.SameObservable (s t : State) : Prop where
  phase : s.phase = t.phase
  inputs : s.inputs = t.inputs
  draws : s.draws = t.draws
  accepted : s.accepted = t.accepted
  delivered : s.delivered = t.delivered
  req : s.phase ≠ .idle → s.req = t.req
  rsp : s.phase = .done → s.rsp = t.rsp
  wait : s.phase = .busy → s.wait = t.wait

/-- The first k coming edges do not reset the block; edges that are not listed are quiet. -/
def State.noReset (s : State) (k : Nat) : Prop := ∀ e ∈ s.inputs.take k, e.rst = false

/-- The host does not read the response outputs in the cycles of the first k coming edges. -/
def State.noReads (s : State) (k : Nat) : Prop := ∀ e ∈ s.inputs.take k, e.hostReads = false

end Sys2Proof.Machine
end

