-- ==== Sys2Proof/Certificates/Slice0/Obligations.lean ====
section
/-! DEFINITION. The statements for the provers, in the order of OBLIGATIONS.json: the request and response formats, ENCODE, DECODE, PEEK, the reserved operation, whole transactions, the clocked block, and the host procedures. Each docstring names the rule it formalises. -/

open Sys2Proof Sys2Proof.Machine

/-! ### Formats -/

/-- Every instruction decodes back from its encoding, with every operand at every value (R60, R62; the words of each row). -/
def Obligations.DecodeOfEncodeIsIdentity : Prop :=
  ∀ i : Instr, decodeNumber (encode i).toNat = .ok i

/-- Every request bundle is the encoding of exactly one instruction (R62, R74: the request decoder is total). -/
def Obligations.EncodeOfDecodeIsIdentity : Prop :=
  ∀ b : Bundle, encode (decodeBundle b) = b ∧ ∀ i : Instr, encode i = b → i = decodeBundle b

/-- R60: the request bundle holds OP in bits 1..0, AVAIL_IN in 6..2, VALUE_IN in 134..7 and BYTES_IN in 286..135, byte i of the window at BYTES_IN bits 8i+7..8i. -/
def Obligations.RequestFieldPositions : Prop :=
  ∀ r : Request,
    (∀ k < 2, r.pack.getLsbD k = r.op.getLsbD k) ∧
    (∀ k < 5, r.pack.getLsbD (2 + k) = r.availIn.getLsbD k) ∧
    (∀ k < 128, r.pack.getLsbD (7 + k) = r.valueIn.getLsbD k) ∧
    (∀ k < 152, r.pack.getLsbD (135 + k) = r.bytesIn.getLsbD k) ∧
    (∀ i < Config.maxBytes, ∀ k < 8, r.pack.getLsbD (135 + (8 * i + k)) = (byteAt r.bytesIn i).getLsbD k) ∧
    Request.unpack r.pack = r

/-- R61: the response bundle has the same positions: STATUS, LEN_OUT, VALUE_OUT, BYTES_OUT. -/
def Obligations.ResponseFieldPositions : Prop :=
  ∀ r : Response,
    (∀ k < 2, r.pack.getLsbD k = r.status.getLsbD k) ∧
    (∀ k < 5, r.pack.getLsbD (2 + k) = r.lenOut.getLsbD k) ∧
    (∀ k < 128, r.pack.getLsbD (7 + k) = r.valueOut.getLsbD k) ∧
    (∀ k < 152, r.pack.getLsbD (135 + k) = r.bytesOut.getLsbD k) ∧
    (∀ i < Config.maxBytes, ∀ k < 8, r.pack.getLsbD (135 + (8 * i + k)) = (byteAt r.bytesOut i).getLsbD k) ∧
    Response.unpack r.pack = r

/-- R62: every 2-bit value of OP selects exactly one row of the opcode table, 0b00 ENCODE, 0b01 DECODE, 0b10 PEEK, 0b11 RSVD, and the operands are the request's other fields. -/
def Obligations.OpSelectsExactlyOneRow : Prop :=
  (∀ b : Bundle, ∀ row ∈ opcodeTable, row.selects b = true ↔ row.mnemonic = (decodeBundle b).mnemonic) ∧
  ∀ (a : Count) (v : Value) (w : Window),
    decodeRequest ⟨0b00, a, v, w⟩ = .encode a v w ∧
    decodeRequest ⟨0b01, a, v, w⟩ = .decode a v w ∧
    decodeRequest ⟨0b10, a, v, w⟩ = .peek a v w ∧
    decodeRequest ⟨0b11, a, v, w⟩ = .rsvd a v w

/-- A sanity statement: bundles that 95_test_vectors.md writes out decode to the requests it says they are. -/
def Obligations.PublishedBundlesDecode : Prop :=
  decodeNumber 0x2A32700 = .ok (.encode 0 345678 0) ∧
  decodeNumber 0xAC667000000000000000000000000000000000D = .ok (.decode 3 0 0x158CCE) ∧
  decodeNumber 0xAC667000000000000000000000000000000000E = .ok (.peek 3 0 0x158CCE) ∧
  decodeNumber 0x3 = .ok (.rsvd 0 0 0)

/-- R75, the written form of a request: the fields that are written have the written value, every other field is 0, AVAIL_IN is the list's length unless it is written; an ill-formed text is not assembled. -/
def Obligations.AssembledRequestFields : Prop :=
  (∀ t : RequestText, t.wellFormed = false → t.assemble = none) ∧
  (∀ v < 2 ^ 128, ∃ x : Value, (RequestText.encode v).assemble = some (.encode 0 x 0) ∧ x.toNat = v) ∧
  (∀ (bs : List Byte) (avail : Option Nat), bs.length ≤ 19 → (∀ a, avail = some a → a < 32) →
    ∃ (c : Count) (w : Window),
      (RequestText.decode bs avail).assemble = some (.decode c 0 w) ∧
      (RequestText.peek bs avail).assemble = some (.peek c 0 w) ∧
      c.toNat = avail.getD bs.length ∧
      ∀ i < 19, byteAt w i = if h : i < bs.length then bs[i] else 0x00) ∧
  RequestText.rsvd.assemble = some (.rsvd 0 0 0)

/-! ### ENCODE -/

/-- R81, R45: ENCODE completes in every state with STATUS OK, LEN_OUT = L, VALUE_OUT = 0 and the bytes of the parallel form, and changes PHASE and RSP only. -/
def Obligations.EncodeCompletesWithParallelForm : Prop :=
  ∀ (a : Count) (v : Value) (b : Window) (s : State),
    ∃ out : Window,
      Sys2Proof.Machine.exec (.encode a v b) s =
        .next { s with phase := .done, rsp := ⟨0b00, countOf (canonicalLength v.toNat), 0, out⟩ } ∧
      (countOf (canonicalLength v.toNat)).toNat = max 1 ((bitLength v.toNat + 6) / 7) ∧
      (∀ i < canonicalLength v.toNat, byteAt out i =
        BitVec.ofNat 8 (((v.toNat >>> (7 * i)) &&& 0x7f) ||| (if i < canonicalLength v.toNat - 1 then 0x80 else 0x00))) ∧
      ∀ i, canonicalLength v.toNat ≤ i → i < Config.maxBytes → byteAt out i = 0x00

/-- R82: LEN_OUT is the smallest k ≥ 1 with V < 2^(7k), at most MAX_BYTES; the output is the canonical encoding of V and never ends in a 0x00 byte unless LEN_OUT = 1. -/
def Obligations.EncodeLengthIsLeast : Prop :=
  ∀ (a : Count) (v : Value) (b : Window) (s t : State), Sys2Proof.Machine.exec (.encode a v b) s = .next t →
    1 ≤ t.rsp.lenOut.toNat ∧ t.rsp.lenOut.toNat ≤ Config.maxBytes ∧
    v.toNat < 2 ^ (7 * t.rsp.lenOut.toNat) ∧
    (∀ k, 1 ≤ k → v.toNat < 2 ^ (7 * k) → t.rsp.lenOut.toNat ≤ k) ∧
    encodedView t.rsp = canonicalBytes v.toNat ∧
    (byteAt t.rsp.bytesOut (t.rsp.lenOut.toNat - 1) = 0x00 → t.rsp.lenOut.toNat = 1)

/-- R84: the shape of ENCODE's output, and that it is a well-formed encoding whose value is V. -/
def Obligations.EncodeOutputIsWellFormed : Prop :=
  ∀ (a : Count) (v : Value) (b : Window) (s t : State), Sys2Proof.Machine.exec (.encode a v b) s = .next t →
    (∀ i < t.rsp.lenOut.toNat - 1, (byteAt t.rsp.bytesOut i).getLsbD 7 = true) ∧
    (byteAt t.rsp.bytesOut (t.rsp.lenOut.toNat - 1)).getLsbD 7 = false ∧
    (∀ i, t.rsp.lenOut.toNat ≤ i → i < Config.maxBytes → byteAt t.rsp.bytesOut i = 0x00) ∧
    isEncoding (encodedView t.rsp) = true ∧
    encodingValue (encodedView t.rsp) = v.toNat

/-- R72: among all well-formed encodings of V, ENCODE's is the only one of the canonical length, and the only minimal one. -/
def Obligations.EncodeOutputIsCanonical : Prop :=
  ∀ (a : Count) (v : Value) (b : Window) (s t : State), Sys2Proof.Machine.exec (.encode a v b) s = .next t →
    ∀ bs : List Byte, isEncoding bs = true → encodingValue bs = v.toNat →
      (bs.length = max 1 ((bitLength v.toNat + 6) / 7) ↔ bs = encodedView t.rsp) ∧
      (bs.length = 1 ∨ bs.getLast? ≠ some 0x00 ↔ bs = encodedView t.rsp)

/-! ### DECODE -/

/-- R100: DECODE completes in every state. Where byte t is the first byte with bit 7 clear and t < n, STATUS is OK, LEN_OUT is t + 1 and VALUE_OUT is the accumulated value of bytes 0 .. t in W bits; where there is no such byte, the response is that of InvalidSequence. Only PHASE and RSP change. -/
def Obligations.DecodeCompletesWithValue : Prop :=
  ∀ (a : Count) (v : Value) (w : Window) (s : State),
    (∀ t, t < min a.toNat Config.maxBytes → (∀ i < t, (byteAt w i).getLsbD 7 = true) → (byteAt w t).getLsbD 7 = false →
      ∃ (len : Count) (x : Value),
        Sys2Proof.Machine.exec (.decode a v w) s = .next { s with phase := .done, rsp := ⟨0b00, len, x, 0⟩ } ∧
        len.toNat = t + 1 ∧
        x.toNat = encodingValue ((List.range (t + 1)).map (byteAt w)) % 2 ^ 128) ∧
    ((∀ i < min a.toNat Config.maxBytes, (byteAt w i).getLsbD 7 = true) →
      Sys2Proof.Machine.exec (.decode a v w) s = .next { s with phase := .done, rsp := ⟨0b01, 0, 0, 0⟩ })

/-- R103: DECODE gives INVALID_SEQUENCE exactly when none of bytes 0 .. n − 1 has bit 7 clear, and its three causes (empty, incomplete, overlong) give the same response, all other fields 0 (R105). -/
def Obligations.DecodeInvalidExactlyWithoutTerminator : Prop :=
  ∀ (a : Count) (v : Value) (w : Window) (s t : State), Sys2Proof.Machine.exec (.decode a v w) s = .next t →
    (t.rsp.status = 0b01 ↔ ∀ i < min a.toNat Config.maxBytes, (byteAt w i).getLsbD 7 = true) ∧
    (t.rsp.status = 0b01 → t.rsp = ⟨0b01, 0, 0, 0⟩)

/-- R101, R41: VALUE_OUT is the value of the accepted encoding modulo 2^W with STATUS OK; byte i contributes value bits 7i+6 .. 7i, and payload bits at position W and above are dropped: bit p of VALUE_OUT is bit p mod 7 of byte p / 7, for the bytes up to the terminating one, and 0 above them. -/
def Obligations.DecodeValueBits : Prop :=
  ∀ (a : Count) (v : Value) (w : Window) (s u : State) (t : Nat),
    t < min a.toNat Config.maxBytes → (∀ i < t, (byteAt w i).getLsbD 7 = true) → (byteAt w t).getLsbD 7 = false →
    Sys2Proof.Machine.exec (.decode a v w) s = .next u →
    u.rsp.status = 0b00 ∧
    u.rsp.valueOut.toNat = encodingValue ((List.range (t + 1)).map (byteAt w)) % 2 ^ 128 ∧
    ∀ p < 128, u.rsp.valueOut.getLsbD p = if p / 7 ≤ t then (byteAt w (p / 7)).getLsbD (p % 7) else false

/-- R102: a non-minimal encoding of at most MAX_BYTES bytes is accepted: STATUS OK, LEN_OUT its length, VALUE_OUT its value. -/
def Obligations.DecodeAcceptsNonMinimal : Prop :=
  ∀ (bs : List Byte) (a : Count) (v : Value) (s : State),
    isEncoding bs = true → isMinimal bs = false → bs.length ≤ Config.maxBytes → bs.length ≤ a.toNat →
    ∃ (len : Count) (x : Value),
      Sys2Proof.Machine.exec (.decode a v (windowOfBytes bs)) s =
        .next { s with phase := .done, rsp := ⟨0b00, len, x, 0⟩ } ∧
      len.toNat = bs.length ∧ x.toNat = encodingValue bs

/-! ### PEEK -/

/-- R120, R122: PEEK completes in every state: with the 1-based position of the first byte whose bit 7 is clear among the first n, or with INVALID_SEQUENCE where there is none; every other field is 0, and only PHASE and RSP change. -/
def Obligations.PeekCompletesWithLength : Prop :=
  ∀ (a : Count) (v : Value) (w : Window) (s : State),
    (∀ t, t < min a.toNat Config.maxBytes → (∀ i < t, (byteAt w i).getLsbD 7 = true) → (byteAt w t).getLsbD 7 = false →
      ∃ len : Count, len.toNat = t + 1 ∧
        Sys2Proof.Machine.exec (.peek a v w) s = .next { s with phase := .done, rsp := ⟨0b00, len, 0, 0⟩ }) ∧
    ((∀ i < min a.toNat Config.maxBytes, (byteAt w i).getLsbD 7 = true) →
      Sys2Proof.Machine.exec (.peek a v w) s = .next { s with phase := .done, rsp := ⟨0b01, 0, 0, 0⟩ })

/-- R123: PEEK and DECODE give the same STATUS and the same LEN_OUT for every window and every AVAIL_IN. -/
def Obligations.PeekAgreesWithDecode : Prop :=
  ∀ (a : Count) (v v' : Value) (w : Window) (s s' t t' : State),
    Sys2Proof.Machine.exec (.peek a v w) s = .next t → Sys2Proof.Machine.exec (.decode a v' w) s' = .next t' →
    t.rsp.status = t'.rsp.status ∧ t.rsp.lenOut = t'.rsp.lenOut

/-- R125: with t the index of the window's first byte whose bit 7 is clear, PEEK is absent for every AVAIL_IN ≤ t and OK with LEN_OUT = t + 1 for every larger one; with no such byte it is absent for every AVAIL_IN. -/
def Obligations.PeekIsMonotoneInAvailable : Prop :=
  ∀ (w : Window) (a : Count) (v : Value) (s u : State), Sys2Proof.Machine.exec (.peek a v w) s = .next u →
    (∀ t < Config.maxBytes, (∀ i < t, (byteAt w i).getLsbD 7 = true) → (byteAt w t).getLsbD 7 = false →
      (a.toNat ≤ t → u.rsp.status = 0b01) ∧
      (t + 1 ≤ a.toNat → u.rsp.status = 0b00 ∧ u.rsp.lenOut.toNat = t + 1)) ∧
    ((∀ i < Config.maxBytes, (byteAt w i).getLsbD 7 = true) → u.rsp.status = 0b01)

/-! ### The reserved operation and the response table -/

/-- R67: a request whose OP is 0b11 is RSVD, and RSVD completes in every state, whatever its fields, with STATUS RESERVED_OP and every other field 0; only PHASE and RSP change. -/
def Obligations.ReservedOpCompletes : Prop :=
  (∀ r : Request, r.op = 0b11 → decodeRequest r = .rsvd r.availIn r.valueIn r.bytesIn) ∧
  ∀ (a : Count) (v : Value) (w : Window) (s : State),
    Sys2Proof.Machine.exec (.rsvd a v w) s = .next { s with phase := .done, rsp := ⟨0b10, 0, 0, 0⟩ }

/-- R66: for each operation and outcome, what STATUS and LEN_OUT are and which fields are 0. In particular no operation writes STATUS 0b11 (R25, R68). -/
def Obligations.ResponseFieldTable : Prop :=
  ∀ (i : Instr) (s t : State), Sys2Proof.Machine.exec i s = .next t →
    match i with
    | .encode _ v _ =>
      t.rsp.status = 0b00 ∧ 1 ≤ t.rsp.lenOut.toNat ∧ t.rsp.lenOut.toNat ≤ Config.maxBytes ∧ t.rsp.valueOut = 0 ∧
        (windowBytes t.rsp.bytesOut) =
          canonicalBytes v.toNat ++ List.replicate (Config.maxBytes - t.rsp.lenOut.toNat) 0x00
    | .decode a _ w =>
      (t.rsp.status = 0b00 ∧ 1 ≤ t.rsp.lenOut.toNat ∧ t.rsp.lenOut.toNat ≤ min a.toNat Config.maxBytes ∧
        t.rsp.valueOut.toNat = encodingValue ((windowBytes w).take t.rsp.lenOut.toNat) % 2 ^ 128 ∧ t.rsp.bytesOut = 0) ∨
        t.rsp = ⟨0b01, 0, 0, 0⟩
    | .peek a _ _ =>
      (t.rsp.status = 0b00 ∧ 1 ≤ t.rsp.lenOut.toNat ∧ t.rsp.lenOut.toNat ≤ min a.toNat Config.maxBytes ∧
        t.rsp.valueOut = 0 ∧ t.rsp.bytesOut = 0) ∨ t.rsp = ⟨0b01, 0, 0, 0⟩
    | .rsvd .. => t.rsp = ⟨0b10, 0, 0, 0⟩

/-- R64: every value of AVAIL_IN above MAX_BYTES acts exactly as MAX_BYTES does. -/
def Obligations.LargeCountsActAsMaxBytes : Prop :=
  ∀ (a : Count) (v : Value) (w : Window) (s : State), Config.maxBytes < a.toNat →
    Sys2Proof.Machine.exec (.decode a v w) s = Sys2Proof.Machine.exec (.decode 19 v w) s ∧
    Sys2Proof.Machine.exec (.peek a v w) s = Sys2Proof.Machine.exec (.peek 19 v w) s

/-- R65, R46: a field, or a window byte, that the operation does not read has no effect. ENCODE reads VALUE_IN only; DECODE reads the bytes below n up to the first with bit 7 clear, PEEK bit 7 of those bytes only (R121); the reserved operation reads nothing but OP. -/
def Obligations.UnreadFieldsHaveNoEffect : Prop :=
  ∀ (a a' : Count) (v v' : Value) (w w' : Window) (s : State),
    Sys2Proof.Machine.exec (.encode a v w) s = Sys2Proof.Machine.exec (.encode a' v w') s ∧
    Sys2Proof.Machine.exec (.rsvd a v w) s = Sys2Proof.Machine.exec (.rsvd a' v' w') s ∧
    ((∀ j < min a.toNat Config.maxBytes, (∀ i < j, (byteAt w i).getLsbD 7 = true) → byteAt w j = byteAt w' j) →
      Sys2Proof.Machine.exec (.decode a v w) s = Sys2Proof.Machine.exec (.decode a v' w') s) ∧
    ((∀ j < min a.toNat Config.maxBytes, (∀ i < j, (byteAt w i).getLsbD 7 = true) →
        (byteAt w j).getLsbD 7 = (byteAt w' j).getLsbD 7) →
      Sys2Proof.Machine.exec (.peek a v w) s = Sys2Proof.Machine.exec (.peek a v' w') s)

/-! ### The units together -/

/-- R106: DECODE of a window that begins with ENCODE's output for V, with any AVAIL_IN of at least its length and any bytes after it, completes with STATUS OK, LEN_OUT = L and VALUE_OUT = V. -/
def Obligations.DecodeOfEncodeReturnsValue : Prop :=
  ∀ (a₀ a : Count) (v x : Value) (b₀ w : Window) (s t u : State),
    Sys2Proof.Machine.exec (.encode a₀ v b₀) s = .next t →
    (∀ i < t.rsp.lenOut.toNat, byteAt w i = byteAt t.rsp.bytesOut i) →
    t.rsp.lenOut.toNat ≤ a.toNat →
    Sys2Proof.Machine.exec (.decode a x w) u =
      .next { u with phase := .done, rsp := ⟨0b00, t.rsp.lenOut, v, 0⟩ }

/-- R124: PEEK of a window that begins with ENCODE's output, L bytes long, gives OK with LEN_OUT = L for every AVAIL_IN of at least L, and is absent for every smaller one. -/
def Obligations.PeekOfEncodeReturnsLength : Prop :=
  ∀ (a₀ a : Count) (v x : Value) (b₀ w : Window) (s t u : State),
    Sys2Proof.Machine.exec (.encode a₀ v b₀) s = .next t →
    (∀ i < min a.toNat t.rsp.lenOut.toNat, byteAt w i = byteAt t.rsp.bytesOut i) →
    (t.rsp.lenOut.toNat ≤ a.toNat → Sys2Proof.Machine.exec (.peek a x w) u =
      .next { u with phase := .done, rsp := ⟨0b00, t.rsp.lenOut, 0, 0⟩ }) ∧
    (a.toNat < t.rsp.lenOut.toNat → Sys2Proof.Machine.exec (.peek a x w) u =
      .next { u with phase := .done, rsp := ⟨0b01, 0, 0, 0⟩ })

/-- R73: a well-formed encoding of at most MAX_BYTES bytes overflows exactly when its value is 2^W or more, is then minimal all the same, decodes to its value modulo 2^W, and is ENCODE of its own DECODE exactly when it is minimal and does not overflow. -/
def Obligations.ReencodingIsIdentityExactlyOnCanonical : Prop :=
  ∀ bs : List Byte, isEncoding bs = true → bs.length ≤ Config.maxBytes →
    (overflowsWidth bs = true ↔ 2 ^ 128 ≤ encodingValue bs) ∧
    (overflowsWidth bs = true → isMinimal bs = true) ∧
    (decodeBuffer bs).valueOut.toNat = encodingValue bs % 2 ^ 128 ∧
    (encodedView (respondTo (.encode 0 (decodeBuffer bs).valueOut 0)) = bs ↔
      isMinimal bs = true ∧ overflowsWidth bs = false)

/-- R47: with a caller's slice of any length presented as the rule says, PEEK and DECODE give what the scan of the whole slice, at most MAX_BYTES positions, gives. -/
def Obligations.SlicePresentationIsFaithful : Prop :=
  ∀ (slice : List Byte) (rest : Window) (v : Value) (s t u : State),
    (presentSlice slice rest).1.toNat = min slice.length Config.maxBytes ∧
    (Sys2Proof.Machine.exec (.peek (presentSlice slice rest).1 v (presentSlice slice rest).2) s = .next t →
     Sys2Proof.Machine.exec (.decode (presentSlice slice rest).1 v (presentSlice slice rest).2) s = .next u →
      match encodingLength slice with
      | some len =>
        t.rsp.status = 0b00 ∧ t.rsp.lenOut.toNat = len ∧ u.rsp.status = 0b00 ∧ u.rsp.lenOut.toNat = len ∧
          u.rsp.valueOut.toNat = encodingValue (slice.take len) % 2 ^ 128
      | none => t.rsp = ⟨0b01, 0, 0, 0⟩ ∧ u.rsp = ⟨0b01, 0, 0, 0⟩)

/-! ### The clocked block -/

/-- The step runs the latched request: at an edge without reset and without a read by the host, a BUSY block whose wait is over answers what exec answers for the instruction that the request's bundle decodes to. The second clause is about the model's own way to place a request: a word of at most 287 bits is laid out as log entry 14 says (DESIGN CHOICE), and after withFetchWord, which stands for presenting, accepting and waiting as log entry 6 says (DEDUCED), the next step runs the instruction that decodeTableWord reads from that word. -/
def Obligations.StepRunsDecodedRequest : Prop :=
  (∀ s : State, s.phase = .busy → s.wait = 0 → s.edge.rst = false → s.edge.hostReads = false →
    step s = Sys2Proof.Machine.exec (decodeBundle s.req.pack) { s with inputs := s.inputs.tail }) ∧
  ∀ (s : State) (nbits w : Nat), nbits ≤ 287 →
    ∃ i : Instr, decodeTableWord nbits w = some i ∧
      step (s.withFetchWord nbits w) = Sys2Proof.Machine.exec i
        { s with phase := .busy, req := i.request, wait := 0, accepted := s.accepted ++ [i.request] }

/-- R169: a step never refuses, and it faults exactly when the host reads the response outputs where they hold no value or reads STATUS = 0b11. In a good state the second cannot be. -/
def Obligations.OnlyTheHostsReadFaults : Prop :=
  ∀ s : State,
    (∀ r, step s ≠ .refused r) ∧
    ((∃ f, step s = .fault f) ↔
      s.edge.hostReads = true ∧ (s.phase ≠ .done ∨ s.edge.rst = true ∨ s.rsp.status = 0b11)) ∧
    (s.Good → ∀ f, step s = .fault f → f = .responseReadOutsideDone)

/-- R180, R181: at an edge with rst = 1, from any phase, PHASE becomes IDLE; no request is accepted, no response is taken, and req_ready = rsp_valid = 0. -/
def Obligations.ResetEdgeDropsTransaction : Prop :=
  ∀ s : State, s.edge.rst = true → s.edge.hostReads = false →
    s.reqReady = false ∧ s.rspValid = false ∧
    ∃ t, step s = .next t ∧ t.phase = .idle ∧ t.accepted = s.accepted ∧ t.delivered = s.delivered ∧
      t.inputs = s.inputs.tail

/-- R183: in IDLE with rst = 0, req_valid = 1 loads REQ from the request port and goes to BUSY, RSP unchanged; req_valid = 0 changes nothing. -/
def Obligations.IdleEdgeAccepts : Prop :=
  ∀ s : State, s.phase = .idle → s.edge.rst = false → s.edge.hostReads = false →
    (s.edge.reqValid = true → ∃ t, step s = .next t ∧ t.phase = .busy ∧ t.req = s.edge.request ∧ t.rsp = s.rsp ∧
      t.accepted = s.accepted ++ [s.edge.request] ∧ t.delivered = s.delivered ∧ t.inputs = s.inputs.tail) ∧
    (s.edge.reqValid = false → step s = .next { s with inputs := s.inputs.tail })

/-- R184: a request is accepted at an edge exactly when req_ready and req_valid are 1 there, and req_ready = 0 while PHASE is BUSY or DONE. -/
def Obligations.OneTransactionAtATime : Prop :=
  ∀ s t : State, step s = .next t →
    t.accepted = (if s.reqReady = true ∧ s.edge.reqValid = true then s.accepted ++ [s.edge.request] else s.accepted) ∧
    (s.phase ≠ .idle → s.reqReady = false) ∧
    (s.phase ≠ .idle → s.edge.rst = false → t.req = s.req)

/-- R185: a transaction accepted at an edge is BUSY after each of the LAT edges before its completing one and completes at the LAT-th edge after acceptance with RSP = Op(REQ), if no reset intervenes and the host does not read what is not yet there, whatever the request port carries meanwhile (R49, R187). LAT is at least 1 and is the same for the reserved OP as for ENCODE. -/
def Obligations.CompletesAfterItsLatency : Prop :=
  ∀ s : State, s.phase = .idle → s.edge.reqValid = true →
    let lat := latency (decodeRequest s.edge.request) s.draws
    1 ≤ lat ∧
    (∀ a v w, latency (.rsvd a v w) s.draws = latency (.encode a v w) s.draws) ∧
    (s.noReset (lat + 1) → s.noReads (lat + 1) →
      (∀ k, 1 ≤ k → k ≤ lat → ∃ t, core.run k s = .next t ∧ State.phase t = .busy) ∧
      ∃ t, core.run (lat + 1) s = .next t ∧ State.phase t = .done ∧ State.req t = s.edge.request ∧
        State.rsp t = respond s.edge.request ∧ State.inputs t = s.inputs.drop (lat + 1))

/-- R186: in DONE with rst = 0, rsp_valid = 1 and the outputs hold RSP; while rsp_ready = 0 the block stays in DONE and holds RSP, with no time limit, whether or not the host reads it (R48: no read has a side effect); at an edge with rsp_ready = 1 the host takes the response and PHASE becomes IDLE. -/
def Obligations.ResponseIsHeldUntilTaken : Prop :=
  ∀ s : State, s.phase = .done → s.rsp.status ≠ 0b11 →
    (s.edge.rst = false → s.rspValid = true ∧ s.rspOutputs = some s.rsp) ∧
    (∀ k, s.noReset k → (∀ e ∈ s.inputs.take k, e.rspReady = false) →
      core.run k s = .next { s with inputs := s.inputs.drop k }) ∧
    (s.edge.rst = false → s.edge.rspReady = true →
      step s = .next { s with
        phase := .idle, inputs := s.inputs.tail, delivered := s.delivered ++ [⟨s.req, s.rsp⟩] })

/-- R190: after an acceptance no other request is accepted within LAT + 1 edges, if no reset intervenes: two acceptances are at least LAT + 2 edges apart. -/
def Obligations.AcceptancesAreSpaced : Prop :=
  ∀ (s t u : State) (k : Nat), s.phase = .idle → s.edge.reqValid = true →
    let lat := latency (decodeRequest s.edge.request) s.draws
    s.noReset (lat + 2) → step s = .next t → k ≤ lat + 1 → core.run k t = .next u →
    State.accepted u = s.accepted ++ [s.edge.request]

/-- R187: outside an accepting edge the request port has no effect: two states that differ only in what req_valid and the request fields are at the coming edge go to the same next state when neither accepts there; and RSP changes only at a completing edge and at reset. -/
def Obligations.RequestPortIsSampledOnlyAtAcceptance : Prop :=
  ∀ (s : State) (e e' : Edge) (rest : List Edge),
    e.rst = e'.rst → e.rspReady = e'.rspReady → e.hostReads = e'.hostReads →
    (s.phase = .idle → e.rst = false → e.reqValid = false ∧ e'.reqValid = false) →
    step { s with inputs := e :: rest } = step { s with inputs := e' :: rest } ∧
    ∀ t, step { s with inputs := e :: rest } = .next t → t.rsp ≠ s.rsp →
      e.rst = true ∨ s.phase = .busy ∧ s.wait = 0

/-- The reset state is good (the order of acceptance and Op(REQ) hold of it). -/
def Obligations.ResetStateIsGood : Prop := State.reset.Good ∧ State.reset.phase = .idle

/-- R27, R49: every step keeps the invariant that the presented response is Op of the latched request, that every response taken was Op of its own request, and that responses come out in the order of acceptance. -/
def Obligations.EveryStepKeepsGood : Prop :=
  ∀ s t : State, s.Good → step s = .next t → t.Good

/-- R31, R29, R28: contents that the spec leaves unspecified are never observed. Two states that differ only in REQ outside a transaction, RSP outside DONE and the working state outside BUSY show the same port outputs, and each step keeps them so, or faults in the same way. -/
def Obligations.UnspecifiedContentsAreUnobservable : Prop :=
  ∀ s t : State, s.SameObservable t →
    s.reqReady = t.reqReady ∧ s.rspValid = t.rspValid ∧ s.rspOutputs = t.rspOutputs ∧
    ((∃ f, step s = .fault f ∧ step t = .fault f) ∨
      ∃ s' t', step s = .next s' ∧ step t = .next t' ∧ s'.SameObservable t')

/-! ### The host procedures -/

/-- R148: a value written to a channel whose sink accepts every byte is read back from it, after exactly ENCODE's LEN_OUT reads, and what follows it in the channel is left unread. -/
def Obligations.StreamRoundTrip : Prop :=
  ∀ (v : Value) (count : Nat) (after : List ReadEvent),
    (respondTo (.encode 0 v 0)).lenOut.toNat ≤ count →
    (writeToStream v (.takes count)).1 = .ok (respondTo (.encode 0 v 0)).lenOut.toNat ∧
    (writeToStream v (.takes count)).2.length = (respondTo (.encode 0 v 0)).lenOut.toNat ∧
    readFromStream ((writeToStream v (.takes count)).2.map .byte ++ after) = (.ok v, after)

/-- From R142: a source that fails or ends after fewer than MAX_BYTES bytes, all with bit 7 set, gives its I/O error, not INVALID_SEQUENCE and no value. That a used-up list of read events is the end of the input, and that a source which blocks (I9) leaves the call stuck, are the model's reading (DEDUCED, log entry 11), not R142's words. -/
def Obligations.TruncatedStreamIsIoError : Prop :=
  ∀ bs : List Byte, bs.length < Config.maxBytes → (∀ b ∈ bs, b.getLsbD 7 = true) →
    readFromStream (bs.map .byte) = (.error (.io .unexpectedEnd), []) ∧
    (∀ e after, readFromStream (bs.map .byte ++ .fails e :: after) = (.error (.io e), after)) ∧
    ∀ after, readFromStream (bs.map .byte ++ .blocks :: after) = (.stuck, .blocks :: after)

/-- R143: a stream of MAX_BYTES bytes, all with bit 7 set, gives INVALID_SEQUENCE after exactly MAX_BYTES reads. -/
def Obligations.OverlongStreamIsInvalid : Prop :=
  ∀ (bs : List Byte) (after : List ReadEvent), bs.length = Config.maxBytes → (∀ b ∈ bs, b.getLsbD 7 = true) →
    readFromStream (bs.map .byte ++ after) = (.error .invalidSequence, after)

/-- R141: whatever the source does, read_from_stream makes at most MAX_BYTES reads; a value it returns is the value of exactly the bytes read, which are one well-formed encoding, and INVALID_SEQUENCE comes only from MAX_BYTES bytes that all have bit 7 set: the defensive DECODE never fires. -/
def Obligations.ReaderConsumesOneEncoding : Prop :=
  ∀ source : List ReadEvent, ∃ used : List ReadEvent,
    source = used ++ (readFromStream source).2 ∧ used.length ≤ Config.maxBytes ∧
    (∀ v : Value, (readFromStream source).1 = .ok v →
      ∃ bs : List Byte, used = bs.map .byte ∧ isEncoding bs = true ∧ v.toNat = encodingValue bs % 2 ^ 128) ∧
    ((readFromStream source).1 = .error .invalidSequence →
      ∃ bs : List Byte, used = bs.map .byte ∧ bs.length = Config.maxBytes ∧ ∀ b ∈ bs, b.getLsbD 7 = true)

/-- From R144: one write call with the encoding; the count returned is the sink's, at most LEN_OUT, and that many first bytes of the encoding reach the sink; a failure is passed on unchanged. That a larger count of the sink is cut to LEN_OUT, and that the counted bytes are the first ones, is the model's reading (DEDUCED, log entry 11). How many bytes had reached a sink that fails is open in R144: here any number of first bytes of the encoding, a parameter (DESIGN CHOICE, log entry 17). That a write call which never returns leaves the host stuck, with any number of first bytes taken, is the model's choice too (DESIGN CHOICE, log entry 18). -/
def Obligations.WriteReportsAcceptedCount : Prop :=
  ∀ v : Value,
    (∀ count, ∃ r, writeToStream v (.takes count) = (.ok r, (canonicalBytes v.toNat).take r) ∧
      r ≤ (respondTo (.encode 0 v 0)).lenOut.toNat ∧ (r = count ∨ r = (respondTo (.encode 0 v 0)).lenOut.toNat ∧ r ≤ count)) ∧
    (∀ e reached, writeToStream v (.fails e reached) = (.error (.io e), (canonicalBytes v.toNat).take reached)) ∧
    ∀ reached, writeToStream v (.blocks reached) = (.stuck, (canonicalBytes v.toNat).take reached)

/-- R145: a caller value of k ≤ W bits, zero-extended before ENCODE and truncated after DECODE, comes back. -/
def Obligations.CallerWidthRoundTrip : Prop :=
  ∀ (k : Nat) (x : BitVec k), k ≤ 128 →
    (widenCaller k x).toNat = x.toNat ∧
    narrowResult k (decodeBuffer (encodedView (respondTo (.encode 0 (widenCaller k x) 0)))) = x

/-- R146: whichever reading SIGNED_CAST takes, a signed caller value keeps its k-bit pattern, a non-negative one is just zero-extended, and the result is one of the two readings. -/
def Obligations.SignedCastKeepsPattern : Prop :=
  ∀ (k : Nat) (x : BitVec k), k ≤ 128 →
    (castSigned k x).truncate k = x ∧
    (x.msb = false → castSigned k x = widenCaller k x) ∧
    (castSigned k x = x.zeroExtend 128 ∨ castSigned k x = x.signExtend 128)
end

