-- ==== Sys2Proof/Laws/Bundle.lean ====
section
/-! SUPPORT. Which bit of a bundle is which bit of which field (R60, R61). -/

namespace Sys2Proof

/-- The bits of four fields laid out as a bundle: request and response bundles have the same positions. -/
theorem getLsbD_bundle (w : Window) (v : Value) (c : Count) (o : Code) (p : Nat) :
    (w ++ (v ++ (c ++ o)) : Bundle).getLsbD p =
      if p < 2 then o.getLsbD p
      else if p < 7 then c.getLsbD (p - 2)
      else if p < 135 then v.getLsbD (p - 7)
      else w.getLsbD (p - 135) := by
  show (w ++ (v ++ (c ++ o))).getLsbD p = _
  simp only [BitVec.getLsbD_append]
  by_cases h1 : p < 2
  · simp [h1, show p < 135 by omega, show p < 7 by omega]
  · by_cases h2 : p < 7
    · simp [h1, h2, show p < 135 by omega]
    · by_cases h3 : p < 135 <;> simp [h1, h2, h3]

/-- A bundle and its number have the same fields. -/
theorem ofNumber_toNat (b : Bundle) : Request.ofNumber b.toNat = Request.unpack b := by
  simp [Request.ofNumber, Request.unpack, BitVec.extractLsb']

/-- The low two bits of a request bundle are its OP field. -/
theorem op_of_pack (r : Request) : r.pack.extractLsb' 0 2 = r.op := by
  apply BitVec.eq_of_getLsbD_eq
  intro i hi
  simp only [BitVec.getLsbD_extractLsb', hi, decide_true, Bool.true_and, Request.pack, getLsbD_bundle, Nat.zero_add,
    if_true]

end Sys2Proof
end

