-- ==== Sys2Proof/Laws/Windows.lean ====
section
/-! SUPPORT. The laws of the byte windows (read after write, extensionality, a window made from a list) and of the two parts of a wire byte. -/

namespace Sys2Proof.Machine

@[simp] theorem maxBytes_eq : Config.maxBytes = 19 := rfl

@[simp] theorem valueWidth_eq : Config.valueWidth = 128 := rfl

@[simp] theorem countWidth_eq : Config.countWidth = 5 := by decide

theorem getLsbD_byteAt (w : Window) (i j : Nat) (hj : j < 8) :
    (byteAt w i).getLsbD j = w.getLsbD (8 * i + j) := by
  simp [byteAt, hj]

theorem getLsbD_setByte (w : Window) (i : Nat) (b : Byte) (p : Nat) :
    (setByte w i b).getLsbD p =
      (decide (p < 152) && if 8 * i ≤ p ∧ p < 8 * i + 8 then b.getLsbD (p - 8 * i) else w.getLsbD p) := by
  have mask : ∀ q, (BitVec.ofNat 152 255).getLsbD q = decide (q < 8) := by
    intro q
    rw [BitVec.getLsbD_ofNat, show 255 = 2 ^ 8 - 1 from rfl, Nat.testBit_two_pow_sub_one]
    by_cases hq : q < 8 <;> simp [hq]
    omega
  have beyond : ∀ q, 8 ≤ q → b.getLsbD q = false := fun q hq => BitVec.getLsbD_of_ge _ _ hq
  simp only [setByte, BitVec.getLsbD_or, BitVec.getLsbD_and, BitVec.getLsbD_not,
    BitVec.getLsbD_shiftLeft, BitVec.truncate_eq_setWidth, BitVec.getLsbD_setWidth, mask]
  by_cases hp : p < 152
  · by_cases hlo : 8 * i ≤ p
    · by_cases hhi : p < 8 * i + 8
      · have : p - 8 * i < 8 := by omega
        have h2 : p - 8 * i < 152 := by omega
        simp [hp, hlo, hhi, h2, this, Nat.not_lt.mpr hlo]
      · have h8 : ¬ p - 8 * i < 8 := by omega
        simp [hp, hhi, h8, beyond (p - 8 * i) (by omega)]
    · have : p < 8 * i := by omega
      simp [hp, hlo, this]
  · have := BitVec.getLsbD_of_ge w p (by omega)
    simp [hp, this]

/-- A byte reads back as it was written. -/
theorem byteAt_setByte_self (w : Window) (i : Nat) (b : Byte) (hi : i < 19) :
    byteAt (setByte w i b) i = b := by
  apply BitVec.eq_of_getLsbD_eq
  intro j hj
  rw [getLsbD_byteAt _ _ _ hj, getLsbD_setByte]
  have h1 : 8 * i + j < 152 := by omega
  have h2 : 8 * i ≤ 8 * i + j ∧ 8 * i + j < 8 * i + 8 := by omega
  simp only [h1, h2, decide_true, Bool.true_and, and_self, if_true, Nat.add_sub_cancel_left]

/-- A write leaves every other byte alone. -/
theorem byteAt_setByte_ne (w : Window) (i j : Nat) (b : Byte) (hij : i ≠ j) :
    byteAt (setByte w i b) j = byteAt w j := by
  apply BitVec.eq_of_getLsbD_eq
  intro k hk
  rw [getLsbD_byteAt _ _ _ hk, getLsbD_byteAt _ _ _ hk, getLsbD_setByte]
  have h : ¬ (8 * i ≤ 8 * j + k ∧ 8 * j + k < 8 * i + 8) := by omega
  rw [if_neg h]
  by_cases hp : 8 * j + k < 152
  · simp [hp]
  · simp [hp, BitVec.getLsbD_of_ge w (8 * j + k) (by omega)]

theorem byteAt_setByte (w : Window) (i j : Nat) (b : Byte) (hi : i < 19) :
    byteAt (setByte w i b) j = if j = i then b else byteAt w j := by
  by_cases h : j = i
  · subst h; simp [byteAt_setByte_self w j b hi]
  · simp [h, byteAt_setByte_ne w i j b (Ne.symm h)]

@[simp] theorem byteAt_zero (i : Nat) : byteAt 0#152 i = 0#8 := by
  apply BitVec.eq_of_getLsbD_eq
  intro j hj
  simp [getLsbD_byteAt _ _ _ hj]

/-- A window is its MAX_BYTES bytes. -/
theorem window_ext (w w' : Window) (h : ∀ i < 19, byteAt w i = byteAt w' i) : w = w' := by
  apply BitVec.eq_of_getLsbD_eq
  intro p hp
  have hb := congrArg (fun b => b.getLsbD (p % 8)) (h (p / 8) (by omega))
  simp only [getLsbD_byteAt _ _ _ (Nat.mod_lt p (by omega : 8 > 0)), Nat.div_add_mod] at hb
  exact hb

@[simp] theorem length_windowBytes (w : Window) : (windowBytes w).length = 19 := by simp [windowBytes]

theorem getElem_windowBytes (w : Window) (i : Nat) (h : i < (windowBytes w).length) :
    (windowBytes w)[i] = byteAt w i := by simp [windowBytes]

theorem bytesToNat_lt (bs : List Byte) : bytesToNat bs < 256 ^ bs.length := by
  induction bs with
  | nil => simp [bytesToNat]
  | cons b bs ih =>
    have hb := b.isLt
    simp only [bytesToNat, List.length_cons, Nat.pow_succ]
    omega

theorem bytesToNat_digit (bs : List Byte) (i : Nat) :
    bytesToNat bs / 256 ^ i % 256 = (bs.getD i 0).toNat := by
  induction bs generalizing i with
  | nil => simp [bytesToNat]
  | cons b bs ih =>
    have hb := b.isLt
    cases i with
    | zero => simp [bytesToNat]; omega
    | succ i =>
      have : (b.toNat + 256 * bytesToNat bs) / 256 ^ (i + 1) = bytesToNat bs / 256 ^ i := by
        rw [Nat.pow_succ', ← Nat.div_div_eq_div_mul]
        congr 1
        omega
      rw [bytesToNat, this, ih]
      simp

/-- Byte i of a window made from a list is the list's byte i, and 0x00 above the list (R43, R75). -/
theorem byteAt_windowOfBytes (bs : List Byte) (i : Nat) (hi : i < 19) :
    byteAt (windowOfBytes bs) i = bs.getD i 0 := by
  apply BitVec.eq_of_toNat_eq
  have hpow : (2 : Nat) ^ (8 * i) = 256 ^ i := by rw [Nat.pow_mul]
  have hd := bytesToNat_digit bs i
  simp only [byteAt, windowOfBytes, BitVec.extractLsb'_toNat, BitVec.toNat_ofNat, Nat.shiftRight_eq_div_pow]
  have h152 : (2 : Nat) ^ 152 = 2 ^ (8 * i) * 2 ^ (152 - 8 * i) := by
    rw [← Nat.pow_add]; congr 1; omega
  rw [h152, Nat.mod_mul_right_div_self, hpow]
  have hdvd : (2 : Nat) ^ 8 ∣ 2 ^ (152 - 8 * i) := Nat.pow_dvd_pow 2 (by omega)
  rw [Nat.mod_mod_of_dvd _ hdvd]
  exact hd

/-- The continuation bit is set exactly on bytes of 128 and more (R42). -/
theorem continues_iff (b : Byte) : continues b = decide (128 ≤ b.toNat) := by
  have : ∀ b : BitVec 8, continues b = decide (128 ≤ b.toNat) := by decide +kernel
  exact this b

/-- The payload is the byte modulo 128 (R42). -/
theorem payload_eq (b : Byte) : payload b = b.toNat % 128 := by
  simp only [payload, BitVec.toNat_and]
  exact Nat.and_two_pow_sub_one_eq_mod b.toNat 7

theorem payload_lt (b : Byte) : payload b < 128 := by
  rw [payload_eq]; omega

/-- A byte is determined by its two parts. -/
theorem byte_ext (b c : Byte) (hc : continues b = continues c) (hp : payload b = payload c) : b = c := by
  apply BitVec.eq_of_toNat_eq
  simp only [continues_iff, payload_eq, decide_eq_decide] at hc hp
  have := b.isLt
  have := c.isLt
  omega

theorem toNat_continuationByte (v : Nat) : (continuationByte v).toNat = 128 + v % 128 := by
  have h7 : v &&& 127 = v % 128 := Nat.and_two_pow_sub_one_eq_mod v 7
  have hor : v % 128 ||| 128 = 128 + v % 128 := by
    have h := Nat.two_pow_add_eq_or_of_lt (i := 7) (b := v % 128) (Nat.mod_lt v (by omega)) 1
    rw [Nat.or_comm]
    simpa using h.symm
  simp only [continuationByte, BitVec.toNat_ofNat, h7, hor]
  omega

theorem toNat_countOf (n : Nat) (h : n < 32) : (countOf n).toNat = n := by
  simp only [countOf, BitVec.toNat_ofNat]
  omega

theorem countOf_toNat (c : Count) : countOf c.toNat = c := by simp [countOf]

end Sys2Proof.Machine
end

