-- ==== Sys2Proof/Laws/WireFormat.lean ====
section
/-! SUPPORT. The laws of the wire format: the value of an encoding group by group, the length of the canonical encoding, and its bytes one after another. -/

namespace Sys2Proof.Machine

theorem valueFrom_scale (i : Nat) (bs : List Byte) : valueFrom i bs = 128 ^ i * encodingValue bs := by
  have base : ∀ (bs : List Byte) (i j : Nat), valueFrom (i + j) bs = 128 ^ i * valueFrom j bs := by
    intro bs
    induction bs with
    | nil => intro i j; simp [valueFrom]
    | cons b bs ih =>
      intro i j
      simp only [valueFrom, Nat.add_assoc, ih i (j + 1), Nat.shiftLeft_eq, Nat.mul_add, Nat.pow_add, Nat.pow_mul]
      norm_num
      ring
  simpa [encodingValue] using base bs i 0

@[simp] theorem encodingValue_nil : encodingValue [] = 0 := rfl

/-- The first byte carries the lowest seven bits (R41). -/
theorem encodingValue_cons (b : Byte) (bs : List Byte) :
    encodingValue (b :: bs) = payload b + 128 * encodingValue bs := by
  have h : encodingValue (b :: bs) = payload b <<< (7 * 0) + valueFrom 1 bs := rfl
  rw [h, valueFrom_scale]
  simp

theorem encodingValue_lt (bs : List Byte) : encodingValue bs < 128 ^ bs.length := by
  induction bs with
  | nil => simp
  | cons b bs ih =>
    have := payload_lt b
    rw [encodingValue_cons, List.length_cons, Nat.pow_succ]
    omega

theorem encodingValue_append (as bs : List Byte) :
    encodingValue (as ++ bs) = encodingValue as + 128 ^ as.length * encodingValue bs := by
  induction as with
  | nil => simp
  | cons a as ih =>
    simp only [List.cons_append, encodingValue_cons, ih, List.length_cons, Nat.pow_succ]
    ring

theorem bitLength_le_iff (v m : Nat) : bitLength v ≤ m ↔ v < 2 ^ m := by
  unfold bitLength
  split
  · next h => simp [h]
  · next h => rw [← Nat.log2_lt h]; omega

/-- The canonical length is the least number of seven-bit groups that hold the value (R82). -/
theorem canonicalLength_le_iff (v k : Nat) (hk : 1 ≤ k) : canonicalLength v ≤ k ↔ v < 128 ^ k := by
  have h : (128 : Nat) ^ k = 2 ^ (7 * k) := by rw [Nat.pow_mul]
  rw [h, ← bitLength_le_iff, canonicalLength]
  omega

theorem canonicalLength_pos (v : Nat) : 1 ≤ canonicalLength v := by
  unfold canonicalLength; omega

theorem canonicalLength_small (v : Nat) (h : v < 128) : canonicalLength v = 1 := by
  have := (canonicalLength_le_iff v 1 (by omega)).mpr (by simpa using h)
  have := canonicalLength_pos v
  omega

theorem canonicalLength_step (v : Nat) (h : 128 ≤ v) :
    canonicalLength v = canonicalLength (v >>> 7) + 1 := by
  have hs : v >>> 7 = v / 128 := by rw [Nat.shiftRight_eq_div_pow]
  rw [hs]
  have key : ∀ k, 1 ≤ k → (canonicalLength v ≤ k + 1 ↔ canonicalLength (v / 128) ≤ k) := by
    intro k hk
    rw [canonicalLength_le_iff _ _ (by omega), canonicalLength_le_iff _ _ hk, Nat.pow_succ,
      Nat.div_lt_iff_lt_mul (by omega)]
  have hgt : ¬ canonicalLength v ≤ 1 := by
    rw [canonicalLength_le_iff _ _ (by omega)]
    omega
  have h1 := (key (canonicalLength (v / 128)) (canonicalLength_pos _)).mpr (Nat.le_refl _)
  have h2 := (key (canonicalLength v - 1) (by omega)).mp (by omega)
  omega

theorem canonicalByte_last (v : Nat) (h : v < 128) : canonicalByte v 1 0 = BitVec.ofNat 8 v := by
  have h7 : v &&& 127 = v := by
    rw [Nat.and_two_pow_sub_one_eq_mod v 7]; omega
  simp [canonicalByte, h7]

theorem canonicalByte_first (v n : Nat) (hn : 1 ≤ n) : canonicalByte v (n + 1) 0 = continuationByte v := by
  have h : 0 < n + 1 - 1 := by omega
  simp only [canonicalByte, continuationByte, if_pos h, Nat.mul_zero, Nat.shiftRight_zero]

theorem canonicalByte_shift (v n i : Nat) :
    canonicalByte v (n + 1) (i + 1) = canonicalByte (v >>> 7) n i := by
  have h1 : v >>> (7 * (i + 1)) = v >>> 7 >>> (7 * i) := by
    rw [← Nat.shiftRight_add]; congr 1; omega
  have h2 : (i + 1 < n + 1 - 1) = (i < n - 1) := by
    apply propext; omega
  simp only [canonicalByte, h1, h2]

@[simp] theorem length_canonicalBytes (v : Nat) : (canonicalBytes v).length = canonicalLength v := by
  simp [canonicalBytes]

/-- A value below 128 is one byte. -/
theorem canonicalBytes_small (v : Nat) (h : v < 128) : canonicalBytes v = [BitVec.ofNat 8 v] := by
  simp [canonicalBytes, canonicalLength_small v h, canonicalByte_last v h]

/-- A larger value is a continuation byte before the canonical encoding of the rest. -/
theorem canonicalBytes_step (v : Nat) (h : 128 ≤ v) :
    canonicalBytes v = continuationByte v :: canonicalBytes (v >>> 7) := by
  simp only [canonicalBytes, canonicalLength_step v h, List.range_succ_eq_map, List.map_cons, List.map_map]
  rw [canonicalByte_first v _ (canonicalLength_pos _)]
  congr 1
  apply List.map_congr_left
  intro i _
  exact canonicalByte_shift v _ i

end Sys2Proof.Machine
end

