-- ==== Sys2Proof/Laws/Encoder.lean ====
section
/-! SUPPORT. What the loop of ENCODE leaves in the window: the loop of R80 and the parallel form of R81, byte by byte. -/

namespace Sys2Proof.Machine

/-- From counter k the loop writes the canonical bytes of v at k, k + 1, ... and leaves every other byte as it was; its counter ends past them. -/
theorem packLoop_spec (fuel v k : Nat) (w : Window) (hv : v < 128 ^ (fuel + 1)) (hk : k + fuel < 19) :
    (packLoop fuel v k w).2 = k + canonicalLength v ∧
      ∀ i < 19, byteAt (packLoop fuel v k w).1 i =
        if k ≤ i ∧ i < k + canonicalLength v then canonicalByte v (canonicalLength v) (i - k) else byteAt w i := by
  have last : ∀ (w : Window) (v k : Nat), v < 128 → k < 19 → ∀ i < 19, byteAt (setByte w k (BitVec.ofNat 8 v)) i =
      if k ≤ i ∧ i < k + 1 then canonicalByte v 1 (i - k) else byteAt w i := by
    intro w v k hv hk i _
    rw [byteAt_setByte _ _ _ _ hk]
    by_cases h : i = k
    · subst h; simp [canonicalByte_last v hv]
    · rw [if_neg h, if_neg (by omega)]
  induction fuel generalizing v k w with
  | zero =>
    have hv : v < 128 := by simpa using hv
    simp only [packLoop, canonicalLength_small v hv]
    exact ⟨trivial, last w v k hv (by omega)⟩
  | succ fuel ih =>
    unfold packLoop
    split
    · next h =>
      have hv' : v >>> 7 < 128 ^ (fuel + 1) := by
        rw [Nat.shiftRight_eq_div_pow, Nat.div_lt_iff_lt_mul (by norm_num)]
        calc v < 128 ^ (fuel + 1 + 1) := hv
          _ = 128 ^ (fuel + 1) * 2 ^ 7 := by rw [Nat.pow_succ]; norm_num
      obtain ⟨hlen, hbytes⟩ := ih (v >>> 7) (k + 1) (setByte w k (continuationByte v)) hv' (by omega)
      have hstep := canonicalLength_step v h
      have hpos := canonicalLength_pos (v >>> 7)
      refine ⟨by omega, fun i hi => ?_⟩
      rw [hbytes i hi, byteAt_setByte _ _ _ _ (by omega), hstep]
      by_cases h0 : i = k
      · subst h0
        rw [if_neg (by omega), if_pos rfl, if_pos (by omega), Nat.sub_self, canonicalByte_first _ _ hpos]
      · by_cases h1 : k + 1 ≤ i ∧ i < k + 1 + canonicalLength (v >>> 7)
        · obtain ⟨j, rfl⟩ : ∃ j, i = k + 1 + j := ⟨i - (k + 1), by omega⟩
          rw [if_pos h1, if_pos (by omega), show k + 1 + j - (k + 1) = j by omega, show k + 1 + j - k = j + 1 by omega,
            canonicalByte_shift]
        · rw [if_neg h1, if_neg h0, if_neg (by omega)]
    · next h =>
      have hv : v < 128 := by omega
      simp only [canonicalLength_small v hv]
      exact ⟨trivial, last w v k hv (by omega)⟩

/-- A W-bit value needs at most MAX_BYTES bytes (R80, corner cases; R83). -/
theorem canonicalLength_le (v : Value) : canonicalLength v.toNat ≤ 19 := by
  rw [canonicalLength_le_iff _ _ (by omega)]
  exact Nat.lt_of_lt_of_le v.isLt (by norm_num)

end Sys2Proof.Machine
end

