-- ==== Sys2Proof/Laws/PerInstr.lean ====
section
/-! SUPPORT. Statements about every instruction as a term, one lemma for each constructor. OpField: the encoder puts the row's OP value (R62) in bits 1..0 of the bundle, and the row that the opcode table gives the mnemonic selects the bundle. -/

namespace Sys2Proof.Laws.OpField

/-- Bits 1..0 of the encoding are the instruction's OP, and some row with its mnemonic selects the encoding. -/
def Statement (i : Instr) : Prop :=
  (Sys2Proof.encode i).extractLsb' 0 2 = i.op ∧ ∃ row ∈ opcodeTable, row.mnemonic = i.mnemonic ∧ row.selects (Sys2Proof.encode i) = true

/-- A row selects a bundle by its low two bits. -/
theorem selects_of_op (b : Bundle) (name : String) (k : Nat) (h : (b.extractLsb' 0 2).toNat = k) :
    OpcodeRow.selects ⟨name, k, 0x3⟩ b = true := by
  have h3 : b.toNat &&& 3 = b.toNat % 4 := Nat.and_two_pow_sub_one_eq_mod b.toNat 2
  have h2 : (b.extractLsb' 0 2).toNat = b.toNat % 4 := by simp [BitVec.extractLsb'_toNat]
  simp [OpcodeRow.selects, h3, ← h, h2]

theorem encode (avail : Count) (value : Value) (bytes : Window) : Statement (.encode avail value bytes) := by
  have h := op_of_pack (Instr.encode avail value bytes).request
  exact ⟨h, ⟨"ENCODE", 0, 3⟩, by simp [opcodeTable], rfl, selects_of_op _ _ _ (congrArg BitVec.toNat h)⟩

theorem decode (avail : Count) (value : Value) (bytes : Window) : Statement (.decode avail value bytes) := by
  have h := op_of_pack (Instr.decode avail value bytes).request
  exact ⟨h, ⟨"DECODE", 1, 3⟩, by simp [opcodeTable], rfl, selects_of_op _ _ _ (congrArg BitVec.toNat h)⟩

theorem peek (avail : Count) (value : Value) (bytes : Window) : Statement (.peek avail value bytes) := by
  have h := op_of_pack (Instr.peek avail value bytes).request
  exact ⟨h, ⟨"PEEK", 2, 3⟩, by simp [opcodeTable], rfl, selects_of_op _ _ _ (congrArg BitVec.toNat h)⟩

theorem rsvd (avail : Count) (value : Value) (bytes : Window) : Statement (.rsvd avail value bytes) := by
  have h := op_of_pack (Instr.rsvd avail value bytes).request
  exact ⟨h, ⟨"RSVD", 3, 3⟩, by simp [opcodeTable], rfl, selects_of_op _ _ _ (congrArg BitVec.toNat h)⟩

end Sys2Proof.Laws.OpField
end

