-- ==== Sys2Proof/Laws/Scan.lean ====
section
/-! SUPPORT. What the scans of PEEK and DECODE find: the first byte whose continuation bit is clear, and the value of the bytes up to it. -/

namespace Sys2Proof.Machine

/-- The scan finds a length exactly where the byte before it is the first one, from i on, whose continuation bit is clear. -/
theorem peekScan_eq_some (w : Window) (left i len : Nat) :
    peekScan w left i = some len ↔
      i < len ∧ len ≤ i + left ∧ continues (byteAt w (len - 1)) = false ∧
        ∀ j, i ≤ j → j < len - 1 → continues (byteAt w j) = true := by
  induction left generalizing i with
  | zero => simp [peekScan]; omega
  | succ left ih =>
    unfold peekScan
    by_cases hc : continues (byteAt w i) = true
    · rw [if_pos hc, ih]
      constructor
      · rintro ⟨h1, h2, h3, h4⟩
        refine ⟨by omega, by omega, h3, fun j hj hj' => ?_⟩
        by_cases h : j = i
        · exact h ▸ hc
        · exact h4 j (by omega) hj'
      · rintro ⟨h1, h2, h3, h4⟩
        have hne : len - 1 ≠ i := by
          intro h
          rw [h, hc] at h3
          exact Bool.noConfusion h3
        exact ⟨by omega, by omega, h3, fun j hj hj' => h4 j (by omega) hj'⟩
    · rw [if_neg hc]
      constructor
      · intro h
        obtain rfl : i + 1 = len := by simpa using h
        exact ⟨by omega, by omega, by simpa using hc, fun j hj hj' => by omega⟩
      · rintro ⟨h1, h2, h3, h4⟩
        by_cases h : len - 1 = i
        · simp; omega
        · exact absurd (h4 i (Nat.le_refl i) (by omega)) hc

/-- The scan finds nothing exactly where every byte it may examine has its continuation bit set. -/
theorem peekScan_eq_none (w : Window) (left i : Nat) :
    peekScan w left i = none ↔ ∀ j, i ≤ j → j < i + left → continues (byteAt w j) = true := by
  induction left generalizing i with
  | zero => simp [peekScan]; omega
  | succ left ih =>
    unfold peekScan
    by_cases hc : continues (byteAt w i) = true
    · rw [if_pos hc, ih]
      constructor
      · intro h j hj hj'
        by_cases hji : j = i
        · exact hji ▸ hc
        · exact h j (by omega) (by omega)
      · exact fun h j hj hj' => h j (by omega) (by omega)
    · rw [if_neg hc]
      constructor
      · intro h; simp at h
      · exact fun h => absurd (h i (Nat.le_refl i) (by omega)) hc

/-- Groups that lie apart add up: `|` and `+` give the same accumulator (R100). -/
theorem payloadAt_or (a i : Nat) (b : Byte) (ha : a < 128 ^ i) :
    BitVec.ofNat 128 a ||| payloadAt b i = BitVec.ofNat 128 (a + payload b <<< (7 * i)) := by
  have ha' : a < 2 ^ (7 * i) := by rwa [Nat.pow_mul]
  have hor : a + payload b <<< (7 * i) = a ||| payload b <<< (7 * i) := by
    rw [Nat.shiftLeft_eq, Nat.mul_comm, Nat.add_comm, Nat.two_pow_add_eq_or_of_lt ha', Nat.or_comm]
  rw [hor]
  apply BitVec.eq_of_getLsbD_eq
  intro p hp
  simp [payloadAt, hp]

/-- DECODE's scan finds the length that PEEK's scan finds, and with it the value of the bytes from i up to that length. -/
theorem decodeScan_eq (w : Window) (left i a : Nat) (ha : a < 128 ^ i) :
    decodeScan w left i (BitVec.ofNat 128 a) =
      (peekScan w left i).map fun len =>
        (len, BitVec.ofNat 128 (a + valueFrom i ((List.range' i (len - i)).map (byteAt w)))) := by
  induction left generalizing i a with
  | zero => simp [decodeScan, peekScan]
  | succ left ih =>
    unfold decodeScan peekScan
    simp only [payloadAt_or a i _ ha]
    have hstep : a + payload (byteAt w i) <<< (7 * i) < 128 ^ (i + 1) := by
      have := payload_lt (byteAt w i)
      have h7 : (2 : Nat) ^ (7 * i) = 128 ^ i := by rw [Nat.pow_mul]
      rw [Nat.shiftLeft_eq, h7, Nat.pow_succ]
      have : payload (byteAt w i) * 128 ^ i ≤ 127 * 128 ^ i := Nat.mul_le_mul_right _ (by omega)
      omega
    by_cases hc : continues (byteAt w i) = true
    · rw [if_pos hc, if_pos hc, ih (i + 1) _ hstep]
      cases hscan : peekScan w left (i + 1) with
      | none => rfl
      | some len =>
        have hlen := (peekScan_eq_some w left (i + 1) len).mp hscan
        have : len - i = (len - (i + 1)) + 1 := by omega
        simp [this, List.range'_succ, valueFrom, Nat.add_assoc]
    · rw [if_neg hc, if_neg hc]
      simp [valueFrom]

/-- The whole scan of DECODE (R100, R101). -/
theorem decodeScan_start (w : Window) (left : Nat) :
    decodeScan w left 0 0 =
      (peekScan w left 0).map fun len =>
        (len, BitVec.ofNat 128 (encodingValue ((List.range len).map (byteAt w)))) := by
  have h := decodeScan_eq w left 0 0 (by simp)
  simpa [encodingValue, List.range_eq_range'] using h

/-- The response of PEEK where the first byte with a clear continuation bit, within the bytes examined, is byte t. -/
theorem peekResponse_found (a : Count) (w : Window) (t : Nat) (ht : t < scanLimit a)
    (hc : ∀ i < t, continues (byteAt w i) = true) (hs : continues (byteAt w t) = false) :
    peekResponse a w = lengthResponse (t + 1) := by
  have h : peekScan w (scanLimit a) 0 = some (t + 1) := by
    rw [peekScan_eq_some]
    exact ⟨by omega, by omega, by simpa using hs, fun j _ hj => hc j (by omega)⟩
  simp [peekResponse, h]

/-- The response of PEEK where every byte examined has its continuation bit set. -/
theorem peekResponse_absent (a : Count) (w : Window)
    (hc : ∀ i < scanLimit a, continues (byteAt w i) = true) : peekResponse a w = raiseInvalidSequence := by
  have h : peekScan w (scanLimit a) 0 = none := by
    rw [peekScan_eq_none]
    exact fun j _ hj => hc j (by omega)
  simp [peekResponse, h]

/-- The response of DECODE where the first byte with a clear continuation bit, within the bytes examined, is byte t. -/
theorem decodeResponse_found (a : Count) (w : Window) (t : Nat) (ht : t < scanLimit a)
    (hc : ∀ i < t, continues (byteAt w i) = true) (hs : continues (byteAt w t) = false) :
    decodeResponse a w =
      decodedResponse (t + 1) (BitVec.ofNat 128 (encodingValue ((List.range (t + 1)).map (byteAt w)))) := by
  have h : peekScan w (scanLimit a) 0 = some (t + 1) := by
    rw [peekScan_eq_some]
    exact ⟨by omega, by omega, by simpa using hs, fun j _ hj => hc j (by omega)⟩
  simp only [decodeResponse, decodeScan_start, h, Option.map_some]

/-- The response of DECODE where every byte examined has its continuation bit set. -/
theorem decodeResponse_invalid (a : Count) (w : Window)
    (hc : ∀ i < scanLimit a, continues (byteAt w i) = true) : decodeResponse a w = raiseInvalidSequence := by
  have h : peekScan w (scanLimit a) 0 = none := by
    rw [peekScan_eq_none]
    exact fun j _ hj => hc j (by omega)
  simp only [decodeResponse, decodeScan_start, h, Option.map_none]

/-- Either the scan stops at a first byte with a clear continuation bit, or every byte examined continues. -/
theorem scan_cases (a : Count) (w : Window) :
    (∃ t, t < scanLimit a ∧ (∀ i < t, continues (byteAt w i) = true) ∧ continues (byteAt w t) = false) ∨
      ∀ i < scanLimit a, continues (byteAt w i) = true := by
  cases h : peekScan w (scanLimit a) 0 with
  | none => exact .inr fun i hi => (peekScan_eq_none w _ 0).mp h i (Nat.zero_le i) (by omega)
  | some len =>
    obtain ⟨h1, h2, h3, h4⟩ := (peekScan_eq_some w _ 0 len).mp h
    exact .inl ⟨len - 1, by omega, fun i hi => h4 i (Nat.zero_le i) hi, h3⟩

theorem scanLimit_le (a : Count) : scanLimit a ≤ 19 := by simp [scanLimit]

end Sys2Proof.Machine
end

