-- ==== Sys2Proof/Laws/State.lean ====
section
/-! SUPPORT. One lemma for each field and each update of the state, so that no proof unfolds a record update. -/

namespace Sys2Proof.Machine

@[simp] theorem State.advance_phase (s : State) : s.advance.phase = s.phase := rfl
@[simp] theorem State.advance_req (s : State) : s.advance.req = s.req := rfl
@[simp] theorem State.advance_rsp (s : State) : s.advance.rsp = s.rsp := rfl
@[simp] theorem State.advance_wait (s : State) : s.advance.wait = s.wait := rfl
@[simp] theorem State.advance_draws (s : State) : s.advance.draws = s.draws := rfl
@[simp] theorem State.advance_inputs (s : State) : s.advance.inputs = s.inputs.tail := rfl
@[simp] theorem State.advance_accepted (s : State) : s.advance.accepted = s.accepted := rfl
@[simp] theorem State.advance_delivered (s : State) : s.advance.delivered = s.delivered := rfl

@[simp] theorem State.accept_phase (s : State) (r : Request) : (s.accept r).phase = .busy := rfl
@[simp] theorem State.accept_req (s : State) (r : Request) : (s.accept r).req = r := rfl
@[simp] theorem State.accept_rsp (s : State) (r : Request) : (s.accept r).rsp = s.rsp := rfl
@[simp] theorem State.accept_wait (s : State) (r : Request) : (s.accept r).wait = latencyExtra (decodeRequest r) s.draws := rfl
@[simp] theorem State.accept_draws (s : State) (r : Request) : (s.accept r).draws = s.draws + 1 := rfl
@[simp] theorem State.accept_inputs (s : State) (r : Request) : (s.accept r).inputs = s.inputs := rfl
@[simp] theorem State.accept_accepted (s : State) (r : Request) : (s.accept r).accepted = s.accepted ++ [r] := rfl
@[simp] theorem State.accept_delivered (s : State) (r : Request) : (s.accept r).delivered = s.delivered := rfl

@[simp] theorem State.complete_phase (s : State) (r : Response) : (s.complete r).phase = .done := rfl
@[simp] theorem State.complete_req (s : State) (r : Response) : (s.complete r).req = s.req := rfl
@[simp] theorem State.complete_rsp (s : State) (r : Response) : (s.complete r).rsp = r := rfl
@[simp] theorem State.complete_wait (s : State) (r : Response) : (s.complete r).wait = s.wait := rfl
@[simp] theorem State.complete_draws (s : State) (r : Response) : (s.complete r).draws = s.draws := rfl
@[simp] theorem State.complete_inputs (s : State) (r : Response) : (s.complete r).inputs = s.inputs := rfl
@[simp] theorem State.complete_accepted (s : State) (r : Response) : (s.complete r).accepted = s.accepted := rfl
@[simp] theorem State.complete_delivered (s : State) (r : Response) : (s.complete r).delivered = s.delivered := rfl

@[simp] theorem State.deliver_phase (s : State) : s.deliver.phase = .idle := rfl
@[simp] theorem State.deliver_req (s : State) : s.deliver.req = s.req := rfl
@[simp] theorem State.deliver_rsp (s : State) : s.deliver.rsp = s.rsp := rfl
@[simp] theorem State.deliver_wait (s : State) : s.deliver.wait = s.wait := rfl
@[simp] theorem State.deliver_draws (s : State) : s.deliver.draws = s.draws := rfl
@[simp] theorem State.deliver_inputs (s : State) : s.deliver.inputs = s.inputs := rfl
@[simp] theorem State.deliver_accepted (s : State) : s.deliver.accepted = s.accepted := rfl
@[simp] theorem State.deliver_delivered (s : State) : s.deliver.delivered = s.delivered ++ [⟨s.req, s.rsp⟩] := rfl

@[simp] theorem State.resetEdge_phase (s : State) : s.resetEdge.phase = .idle := rfl
@[simp] theorem State.resetEdge_req (s : State) : s.resetEdge.req = Request.unpack (Config.unspecifiedReq s.draws) := rfl
@[simp] theorem State.resetEdge_rsp (s : State) : s.resetEdge.rsp = Response.unpack (Config.unspecifiedRsp s.draws) := rfl
@[simp] theorem State.resetEdge_wait (s : State) : s.resetEdge.wait = Config.unspecifiedWait s.draws := rfl
@[simp] theorem State.resetEdge_draws (s : State) : s.resetEdge.draws = s.draws + 1 := rfl
@[simp] theorem State.resetEdge_inputs (s : State) : s.resetEdge.inputs = s.inputs := rfl
@[simp] theorem State.resetEdge_accepted (s : State) : s.resetEdge.accepted = s.accepted := rfl
@[simp] theorem State.resetEdge_delivered (s : State) : s.resetEdge.delivered = s.delivered := rfl

@[simp] theorem State.busyEdge_phase (s : State) (left : Nat) : (s.busyEdge left).phase = s.phase := rfl
@[simp] theorem State.busyEdge_req (s : State) (left : Nat) : (s.busyEdge left).req = s.req := rfl
@[simp] theorem State.busyEdge_rsp (s : State) (left : Nat) : (s.busyEdge left).rsp = s.rsp := rfl
@[simp] theorem State.busyEdge_wait (s : State) (left : Nat) : (s.busyEdge left).wait = left := rfl
@[simp] theorem State.busyEdge_draws (s : State) (left : Nat) : (s.busyEdge left).draws = s.draws := rfl
@[simp] theorem State.busyEdge_inputs (s : State) (left : Nat) : (s.busyEdge left).inputs = s.inputs.tail := rfl
@[simp] theorem State.busyEdge_accepted (s : State) (left : Nat) : (s.busyEdge left).accepted = s.accepted := rfl
@[simp] theorem State.busyEdge_delivered (s : State) (left : Nat) : (s.busyEdge left).delivered = s.delivered := rfl

@[simp] theorem State.withFetchWord_phase (s : State) (nbits w : Nat) : (s.withFetchWord nbits w).phase = .busy := rfl
@[simp] theorem State.withFetchWord_req (s : State) (nbits w : Nat) : (s.withFetchWord nbits w).req = Request.ofNumber (w % 2 ^ nbits) := rfl
@[simp] theorem State.withFetchWord_rsp (s : State) (nbits w : Nat) : (s.withFetchWord nbits w).rsp = s.rsp := rfl
@[simp] theorem State.withFetchWord_wait (s : State) (nbits w : Nat) : (s.withFetchWord nbits w).wait = 0 := rfl
@[simp] theorem State.withFetchWord_draws (s : State) (nbits w : Nat) : (s.withFetchWord nbits w).draws = s.draws := rfl
@[simp] theorem State.withFetchWord_inputs (s : State) (nbits w : Nat) : (s.withFetchWord nbits w).inputs = Edge.quiet :: s.inputs := rfl
@[simp] theorem State.withFetchWord_accepted (s : State) (nbits w : Nat) : (s.withFetchWord nbits w).accepted = s.accepted ++ [Request.ofNumber (w % 2 ^ nbits)] := rfl
@[simp] theorem State.withFetchWord_delivered (s : State) (nbits w : Nat) : (s.withFetchWord nbits w).delivered = s.delivered := rfl

end Sys2Proof.Machine
end

