-- ==== Sys2Proof/Laws/Step.lean ====
section
/-! SUPPORT. What a step can do, said once: every meaning completes with Op of its request, and a step that answers a next state is one row of the phase transition table. -/

namespace Sys2Proof.Machine

/-- Every meaning completes the transaction with the response of its instruction (R27). -/
theorem exec_eq (i : Instr) (s : State) : exec i s = .next (s.complete (respondTo i)) := by
  cases i <;> rfl

/-- A reset edge (R180). -/
theorem step_reset (s : State) (hf : s.readFault = none) (hr : s.edge.rst = true) :
    step s = .next s.advance.resetEdge := by simp [step, hf, hr]

/-- An edge in IDLE (R183). -/
theorem step_idle (s : State) (hf : s.readFault = none) (hr : s.edge.rst = false) (hp : s.phase = .idle) :
    step s = .next s.idleEdge := by simp [step, hf, hr, hp]

/-- An edge in BUSY before the completing one (R185). -/
theorem step_busy (s : State) (left : Nat) (hf : s.readFault = none) (hr : s.edge.rst = false)
    (hp : s.phase = .busy) (hw : s.wait = left + 1) : step s = .next (s.busyEdge left) := by
  simp [step, hf, hr, hp, hw]

/-- The completing edge (R185). -/
theorem step_complete (s : State) (hf : s.readFault = none) (hr : s.edge.rst = false)
    (hp : s.phase = .busy) (hw : s.wait = 0) : step s = .next (s.advance.complete (respond s.req)) := by
  simp [step, hf, hr, hp, hw, exec_eq, State.latched, respond]

/-- An edge in DONE (R186). -/
theorem step_done (s : State) (hf : s.readFault = none) (hr : s.edge.rst = false) (hp : s.phase = .done) :
    step s = .next s.doneEdge := by simp [step, hf, hr, hp]

/-- A fault of a step is a fault of the host's read. -/
theorem step_fault (s : State) (f : Fault) (hf : s.readFault = some f) : step s = .fault f := by simp [step, hf]

/-- A step that answers a next state took one row of the phase transition table, at an edge without a read fault. -/
theorem step_cases (s t : State) (h : step s = .next t) :
    s.readFault = none ∧
      ((s.edge.rst = true ∧ t = s.advance.resetEdge) ∨
        (s.edge.rst = false ∧ s.phase = .idle ∧ s.edge.reqValid = true ∧ t = s.advance.accept s.edge.request) ∨
        (s.edge.rst = false ∧ s.phase = .idle ∧ s.edge.reqValid = false ∧ t = s.advance) ∨
        (s.edge.rst = false ∧ s.phase = .busy ∧ s.wait = 0 ∧ t = s.advance.complete (respond s.req)) ∨
        (s.edge.rst = false ∧ s.phase = .busy ∧ ∃ left, s.wait = left + 1 ∧ t = s.busyEdge left) ∨
        (s.edge.rst = false ∧ s.phase = .done ∧ s.edge.rspReady = true ∧ t = s.advance.deliver) ∨
        (s.edge.rst = false ∧ s.phase = .done ∧ s.edge.rspReady = false ∧ t = s.advance)) := by
  cases hf : s.readFault with
  | some f => simp [step_fault s f hf] at h
  | none =>
    refine ⟨rfl, ?_⟩
    cases hr : s.edge.rst with
    | true =>
      rw [step_reset s hf hr] at h
      cases h
      exact .inl ⟨rfl, rfl⟩
    | false =>
      cases hp : s.phase with
      | idle =>
        rw [step_idle s hf hr hp] at h
        cases h
        cases hv : s.edge.reqValid <;> simp [State.idleEdge, hv]
      | busy =>
        cases hw : s.wait with
        | zero =>
          rw [step_complete s hf hr hp hw] at h
          cases h
          simp
        | succ left =>
          rw [step_busy s left hf hr hp hw] at h
          cases h
          simp
      | done =>
        rw [step_done s hf hr hp] at h
        cases h
        cases hv : s.edge.rspReady <;> simp [State.doneEdge, hv]

/-- No step refuses (R169). -/
theorem step_not_refused (s : State) (r : Refusal) : step s ≠ .refused r := by
  cases hf : s.readFault with
  | some f => simp [step_fault s f hf]
  | none =>
    cases hr : s.edge.rst with
    | true => simp [step_reset s hf hr]
    | false =>
      cases hp : s.phase with
      | idle => simp [step_idle s hf hr hp]
      | busy =>
        cases hw : s.wait with
        | zero => simp [step_complete s hf hr hp hw]
        | succ left => simp [step_busy s left hf hr hp hw]
      | done => simp [step_done s hf hr hp]

/-- A host that reads nothing at the coming edge causes no fault. -/
theorem readFault_of_not_reads (s : State) (h : s.edge.hostReads = false) : s.readFault = none := by
  simp [State.readFault, h]

end Sys2Proof.Machine
end

