-- ==== Sys2Proof/Tests/Slice0.lean ====
section
/-! SUPPORT. Small tests: the checks of well-formedness, the words of each row written out from R60 and R62, vectors of 95_test_vectors.md (their ids in the names), single steps, and for each statement with hypotheses a witness that meets them. -/

open Sys2Proof Sys2Proof.Machine

namespace Sys2Proof.Tests

/-- The state after a step that has one. -/
def after (o : Host.Outcome State Fault Refusal) : Option State :=
  match o with
  | .next s => some s
  | _ => none

/-- The response that exec leaves, from reset. -/
def answer (i : Instr) : Option Response := (after (exec i State.reset)).map State.rsp

/-- The bundle of the response to a request bundle, run by the step. -/
def runBundle (w : Nat) : Option Nat := (after (step (State.reset.withFetchWord 256 w))).map fun s => s.rsp.pack.toNat

/-- k bytes with the continuation bit set, then the given ones. -/
def run80 (k : Nat) (rest : List Byte) : Window := windowOfBytes (List.replicate k 0x80 ++ rest)

/-! ### Well-formedness (R75): one ill-formed text for each check -/

theorem test_value_too_wide_refused : (RequestText.encode (2 ^ 128)).wellFormed = false := by decide
theorem test_list_too_long_refused : (RequestText.decode (List.replicate 20 0x80) (some 19)).wellFormed = false := by decide
theorem test_avail_too_wide_refused : (RequestText.peek [0x00] (some 32)).wellFormed = false := by decide
theorem test_widest_forms_accepted :
    (RequestText.encode (2 ^ 128 - 1)).wellFormed = true ∧
      (RequestText.decode (List.replicate 19 0x80) (some 31)).wellFormed = true := by decide
theorem test_assembled_bundle_P1 :
    ((RequestText.decode [0xCE, 0x8C, 0x15] none).assemble.map fun i => (encode i).toNat) =
      some 0xAC667000000000000000000000000000000000D := by decide

/-! ### Parameters (R5 to R7) -/

theorem test_parameters : Config.maxBytes = 19 ∧ Config.countWidth = 5 ∧ Config.valueWidth = 128 := by decide

/-! ### Decoding: words written out from R60 and R62, and the table words -/

/-- OP = 00, AVAIL_IN = 10101, VALUE_IN = 1, BYTES_IN = 1. -/
theorem test_decode_word_encode :
    decodeNumber (0b00 + 0b10101 * 2 ^ 2 + 1 * 2 ^ 7 + 1 * 2 ^ 135) = .ok (.encode 0b10101 1 1) := by rfl
/-- OP = 01, AVAIL_IN = 00011, VALUE_IN with only its top bit set, byte 2 of the window 0x15. -/
theorem test_decode_word_decode :
    decodeNumber (0b01 + 0b00011 * 2 ^ 2 + 2 ^ 134 + 0x15 * 2 ^ 151) = .ok (.decode 3 (1 <<< 127) (0x15 <<< 16)) := by rfl
/-- OP = 10, AVAIL_IN = 11111, byte 18 of the window 0x80. -/
theorem test_decode_word_peek :
    decodeNumber (0b10 + 0b11111 * 2 ^ 2 + 0x80 * (2 ^ 135 * 2 ^ 144)) = .ok (.peek 31 0 (0x80 <<< 144)) := by rfl
/-- OP = 11, every other bit of the bundle set. -/
theorem test_decode_word_rsvd :
    decodeNumber (2 ^ 144 * 2 ^ 143 - 1) = .ok (.rsvd 31 (-1) (-1)) := by rfl
/-- 2^287, the lowest number with a bit above the bundle. -/
theorem test_decode_above_bundle :
    decodeNumber 0x800000000000000000000000000000000000000000000000000000000000000000000000 = .error .exceedsBundle := by decide
theorem test_decode_bytes : decodeBytes [0x80, 0x00] = .ok (.encode 0 1 0) := by decide
theorem test_table_words :
    decodeTableWord 8 0 = some (.encode 0 0 0) ∧ decodeTableWord 8 1 = some (.decode 0 0 0) ∧
      decodeTableWord 8 2 = some (.peek 0 0 0) ∧ decodeTableWord 8 3 = some (.rsvd 0 0 0) := by decide
theorem test_table_word_runs :
    (after (step (State.reset.withFetchWord 8 1))).map State.rsp = some ⟨0b01, 0, 0, 0⟩ ∧
      (after (step (State.reset.withFetchWord 8 3))).map State.rsp = some ⟨0b10, 0, 0, 0⟩ := by decide

/-! ### Vectors of 95_test_vectors.md -/

theorem test_encode_E12 : answer (.encode 0 345678 0) = some ⟨0b00, 3, 0, 0x158CCE⟩ := by decide
theorem test_encode_E24 :
    answer (.encode 0 (-1) 0) = some ⟨0b00, 19, 0, 0x03FFFFFFFFFFFFFFFFFFFFFFFFFFFFFFFFFFFF⟩ := by decide
theorem test_decode_D7_trailing : answer (.decode 5 0 (windowOfBytes [0xCE, 0x8C, 0x15, 0xFF, 0x01])) = some ⟨0b00, 3, 345678, 0⟩ := by
  decide
theorem test_decode_D20_truncates :
    answer (.decode 19 0 (run80 18 [0x7F])) = some ⟨0b00, 19, 0xC0000000000000000000000000000000, 0⟩ := by decide
theorem test_peek_K12_clamped : answer (.peek 31 0 (run80 18 [0x01])) = some ⟨0b00, 19, 0, 0⟩ := by decide
theorem test_peek_K10_overlong : answer (.peek 19 0 (run80 19 [])) = some ⟨0b01, 0, 0, 0⟩ := by decide
theorem test_rsvd_X2 : answer (.rsvd 19 5 0) = some ⟨0b10, 0, 0, 0⟩ := by decide
/-- Program P1, steps 1 and 3, as bundles. -/
theorem test_bundles_P1 :
    runBundle 0x2A32700 = some 0xAC667000000000000000000000000000000000C ∧
      runBundle 0xAC667000000000000000000000000000000000D = some 0x2A3270C := by decide
/-- Program P3: the two byte sources. -/
theorem test_stream_P3 :
    readFromStream [.byte 0xCE, .byte 0x8C, .byte 0x15, .byte 0x07] = (.ok 345678, [.byte 0x07]) ∧
      readFromStream [.byte 0x80, .byte 0x80] = (.error (.io .unexpectedEnd), []) := by decide
/-- A response as R75 writes it (P1, step 1). -/
theorem test_written_response_P1 :
    writtenResponse (.encode 0 345678 0) ⟨0b00, 3, 0, 0x158CCE⟩ = some ⟨"OK", some 3, none, some [0xCE, 0x8C, 0x15]⟩ := by
  decide

/-! ### Single steps of the clocked block (program P5) -/

/-- An edge at which the host presents a request. -/
def presents (r : Request) : Edge := ⟨false, true, r, false, false⟩

/-- An edge at which the host takes the response, reading it, and presents a request. -/
def takes (r : Request) : Edge := ⟨false, true, r, true, true⟩

/-- An edge with rst = 1. -/
def resets : Edge := ⟨true, true, ⟨1, 0, 0, 0⟩, true, false⟩

/-- The request ENCODE 128. -/
def encode128 : Request := ⟨0, 0, 128, 0⟩

/-- A BUSY block whose ENCODE 128 completes at the coming edge, before further edges. -/
def busy128 (es : List Edge) : State := { State.reset with phase := .busy, req := encode128, inputs := es, accepted := [encode128] }

/-- The response to ENCODE 128. -/
def rsp128 : Response := ⟨0b00, 2, 0, 0x0180⟩

/-- A DONE block that presents the response to ENCODE 128, before further edges. -/
def done128 (es : List Edge) : State := { busy128 es with phase := .done, rsp := rsp128 }

theorem test_edge1_accepts :
    (after (step { State.reset with inputs := [presents encode128] })).map (fun s => (s.phase, s.req, s.accepted)) =
      some (.busy, encode128, [encode128]) := by decide
theorem test_edge2_completes : (after (step (busy128 []))).map (fun s => (s.phase, s.rsp.pack.toNat)) =
    some (.done, 0xC00000000000000000000000000000000008) := by decide
theorem test_edge3_taken_not_accepted :
    after (step (done128 [takes ⟨1, 2, 0, 0x0180⟩])) =
      some { busy128 [] with phase := .idle, rsp := rsp128, delivered := [⟨encode128, rsp128⟩] } := by decide
theorem test_reset_at_edge2_drops :
    (after (step (busy128 [resets]))).map (fun s => (s.phase, s.delivered)) = some (.idle, []) := by rfl
theorem test_read_outside_done_faults :
    step { State.reset with inputs := [⟨false, false, ⟨0, 0, 0, 0⟩, false, true⟩] } = .fault .responseReadOutsideDone := by
  rfl

/-! ### Witnesses: for each statement with hypotheses, values that meet them -/

theorem witness_EncodeOfDecodeIsIdentity : (encode (.encode 0 345678 0)).toNat = 0x2A32700 := by decide
theorem witness_OpSelectsExactlyOneRow :
    ⟨"PEEK", 0x2, 0x3⟩ ∈ opcodeTable ∧ OpcodeRow.selects ⟨"PEEK", 0x2, 0x3⟩ 0x2#287 = true := by decide
theorem witness_EncodeLengthIsLeast : ∃ t, exec (.encode 0 (-1) 0) State.reset = .next t ∧ (-1 : Value).toNat < 2 ^ (7 * 19) := by
  exact ⟨_, rfl, by decide⟩
theorem witness_EncodeLengthIsLeast_zero_byte :
    ∃ t, exec (.encode 0 0 0) State.reset = .next t ∧ byteAt t.rsp.bytesOut (t.rsp.lenOut.toNat - 1) = 0x00 := ⟨_, rfl, by decide⟩
theorem witness_EncodeOutputIsWellFormed :
    ∃ t, exec (.encode 0 128 0) State.reset = .next t ∧ 0 < t.rsp.lenOut.toNat - 1 ∧ t.rsp.lenOut.toNat ≤ 18 := ⟨_, rfl, by decide⟩
theorem witness_EncodeOutputIsCanonical :
    (∃ t, exec (.encode 0 128 0) State.reset = .next t) ∧ isEncoding [0x80, 0x81, 0x00] = true ∧
      encodingValue [0x80, 0x81, 0x00] = (128 : Value).toNat := ⟨⟨_, rfl⟩, by decide⟩
theorem witness_DecodeCompletesWithValue :
    (18 < min (31 : Count).toNat Config.maxBytes ∧ (∀ i < 18, (byteAt (run80 18 [0x7F]) i).getLsbD 7 = true) ∧
      (byteAt (run80 18 [0x7F]) 18).getLsbD 7 = false) ∧
    (0 < min (1 : Count).toNat Config.maxBytes ∧ (byteAt 0 0).getLsbD 7 = false) ∧
    (∀ i < min (31 : Count).toNat Config.maxBytes, (byteAt (run80 19 []) i).getLsbD 7 = true) ∧
    ∀ i < min (0 : Count).toNat Config.maxBytes, (byteAt 0 i).getLsbD 7 = true := by decide
theorem witness_DecodeInvalidExactlyWithoutTerminator :
    ∃ t, exec (.decode 1 0 (run80 1 [0x01])) State.reset = .next t ∧ t.rsp.status = 0b01 := ⟨_, rfl, by decide⟩
theorem witness_DecodeValueBits :
    18 < min (19 : Count).toNat Config.maxBytes ∧ (∀ i < 18, (byteAt (run80 18 [0x7F]) i).getLsbD 7 = true) ∧
      (byteAt (run80 18 [0x7F]) 18).getLsbD 7 = false ∧ ∃ u, exec (.decode 19 0 (run80 18 [0x7F])) State.reset = .next u := by
  refine ⟨by decide, by decide, by decide, _, rfl⟩
theorem witness_DecodeAcceptsNonMinimal :
    isEncoding (List.replicate 18 0x80 ++ [0x00]) = true ∧ isMinimal (List.replicate 18 0x80 ++ [0x00]) = false ∧
      (List.replicate 18 0x80 ++ [(0x00 : Byte)]).length ≤ Config.maxBytes ∧
      (List.replicate 18 0x80 ++ [(0x00 : Byte)]).length ≤ (19 : Count).toNat := by decide
theorem witness_PeekCompletesWithLength :
    (18 < min (20 : Count).toNat Config.maxBytes ∧ (∀ i < 18, (byteAt (run80 18 [0x01]) i).getLsbD 7 = true) ∧
      (byteAt (run80 18 [0x01]) 18).getLsbD 7 = false) ∧
    (∀ i < min (18 : Count).toNat Config.maxBytes, (byteAt (run80 18 [0x01]) i).getLsbD 7 = true) ∧
    ∀ i < min (0 : Count).toNat Config.maxBytes, (byteAt 0 i).getLsbD 7 = true := by decide
theorem witness_PeekAgreesWithDecode :
    ∃ t t', exec (.peek 2 0 (run80 1 [0x01])) State.reset = .next t ∧ exec (.decode 2 1 (run80 1 [0x01])) State.reset = .next t' :=
  ⟨_, _, rfl, rfl⟩
theorem witness_PeekIsMonotoneInAvailable :
    (∃ u, exec (.peek 18 0 (run80 18 [0x01])) State.reset = .next u) ∧
      (∀ i < 18, (byteAt (run80 18 [0x01]) i).getLsbD 7 = true) ∧ (byteAt (run80 18 [0x01]) 18).getLsbD 7 = false ∧
      (18 : Count).toNat ≤ 18 ∧ 18 + 1 ≤ (19 : Count).toNat ∧
      ∀ i < Config.maxBytes, (byteAt (run80 19 []) i).getLsbD 7 = true := by
  refine ⟨⟨_, rfl⟩, by decide⟩
theorem witness_ReservedOpCompletes : (Request.mk 0b11 19 5 0).op = 0b11 := by decide
theorem witness_ResponseFieldTable :
    (∃ t, exec (.encode 0 0 0) State.reset = .next t) ∧ (∃ t, exec (.decode 1 0 0) State.reset = .next t) ∧
      (∃ t, exec (.peek 0 0 0) State.reset = .next t) ∧ ∃ t, exec (.rsvd 0 0 0) State.reset = .next t :=
  ⟨⟨_, rfl⟩, ⟨_, rfl⟩, ⟨_, rfl⟩, ⟨_, rfl⟩⟩
theorem witness_LargeCountsActAsMaxBytes : Config.maxBytes < (20 : Count).toNat ∧ Config.maxBytes < (31 : Count).toNat := by decide
/-- Windows that differ only after the terminating byte (DECODE), and also in payloads (PEEK). -/
theorem witness_UnreadFieldsHaveNoEffect :
    (∀ j < min (5 : Count).toNat Config.maxBytes, (∀ i < j, (byteAt (run80 1 [0x01]) i).getLsbD 7 = true) →
      byteAt (run80 1 [0x01]) j = byteAt (run80 1 [0x01, 0xFF]) j) ∧
    ∀ j < min (5 : Count).toNat Config.maxBytes, (∀ i < j, (byteAt (run80 1 [0x01]) i).getLsbD 7 = true) →
      (byteAt (run80 1 [0x01]) j).getLsbD 7 = (byteAt (run80 1 [0x7F, 0xFF]) j).getLsbD 7 := by decide
theorem witness_DecodeOfEncodeReturnsValue :
    ∃ t, exec (.encode 0 128 0) State.reset = .next t ∧
      (∀ i < t.rsp.lenOut.toNat, byteAt (run80 1 [0x01, 0xFF]) i = byteAt t.rsp.bytesOut i) ∧
      t.rsp.lenOut.toNat ≤ (31 : Count).toNat := ⟨_, rfl, by decide, by decide⟩
theorem witness_PeekOfEncodeReturnsLength :
    ∃ t, exec (.encode 0 128 0) State.reset = .next t ∧
      (∀ i < min (1 : Count).toNat t.rsp.lenOut.toNat, byteAt (run80 3 []) i = byteAt t.rsp.bytesOut i) ∧
      (1 : Count).toNat < t.rsp.lenOut.toNat := ⟨_, rfl, by decide, by decide⟩
theorem witness_ReencodingIsIdentityExactlyOnCanonical :
    (isEncoding (List.replicate 18 0x80 ++ [0x04]) = true ∧ (List.replicate 18 0x80 ++ [(0x04 : Byte)]).length ≤ Config.maxBytes ∧
      overflowsWidth (List.replicate 18 0x80 ++ [0x04]) = true) ∧
    isEncoding (List.replicate 18 0x80 ++ [0x03]) = true ∧ overflowsWidth (List.replicate 18 0x80 ++ [0x03]) = false := by decide
theorem witness_SlicePresentationIsFaithful :
    (∃ t u, exec (.peek (presentSlice (List.replicate 21 0x80) 0).1 0 (presentSlice (List.replicate 21 0x80) 0).2) State.reset = .next t ∧
      exec (.decode (presentSlice (List.replicate 21 0x80) 0).1 0 (presentSlice (List.replicate 21 0x80) 0).2) State.reset = .next u) ∧
    encodingLength (List.replicate 21 0x80) = none ∧ encodingLength (List.replicate 18 0x80 ++ [0x00, 0x00]) = some 19 :=
  ⟨⟨_, _, rfl, rfl⟩, by decide⟩
theorem witness_AssembledRequestFields :
    (RequestText.encode (2 ^ 128)).wellFormed = false ∧ (2 ^ 128 - 1 : Nat) < 2 ^ 128 ∧ (List.replicate 19 (0x80 : Byte)).length ≤ 19 ∧
      ∀ a, some 31 = some a → a < 32 := by
  refine ⟨by decide, by decide, by decide, fun a h => ?_⟩
  cases h
  decide
theorem witness_StepRunsDecodedRequest :
    (busy128 []).phase = .busy ∧ (busy128 []).wait = 0 ∧ (busy128 []).edge.rst = false ∧ (busy128 []).edge.hostReads = false := by
  decide
theorem witness_OnlyTheHostsReadFaults :
    (∃ f, step { busy128 [takes encode128] with wait := 1 } = .fault f) ∧ (busy128 [takes encode128]).edge.hostReads = true ∧
      State.reset.Good := by
  refine ⟨⟨.responseReadOutsideDone, rfl⟩, by decide, ?_, ?_, ?_, ?_⟩ <;> decide
theorem witness_ResetEdgeDropsTransaction :
    (done128 [resets]).edge.rst = true ∧ (done128 [resets]).edge.hostReads = false := by decide
theorem witness_IdleEdgeAccepts :
    ∃ s : State, s.phase = .idle ∧ s.edge.rst = false ∧ s.edge.hostReads = false ∧ s.edge.reqValid = true :=
  ⟨{ State.reset with inputs := [presents encode128] }, by decide⟩
theorem witness_OneTransactionAtATime :
    ∃ t, step (busy128 [presents encode128]) = .next t ∧ (busy128 [presents encode128]).phase ≠ .idle ∧
      (busy128 [presents encode128]).edge.rst = false := ⟨_, rfl, by decide⟩
/-- With one edge listed, every further edge is quiet. -/
theorem witness_CompletesAfterItsLatency :
    ∃ s : State, s.phase = .idle ∧ s.edge.reqValid = true ∧ ∀ k, s.noReset k ∧ s.noReads k := by
  refine ⟨{ State.reset with inputs := [presents encode128] }, rfl, rfl, fun k => ⟨fun e he => ?_, fun e he => ?_⟩⟩ <;>
  · have h := List.mem_of_mem_take he
    simp at h
    subst h
    rfl
theorem witness_ResponseIsHeldUntilTaken :
    ((done128 [presents encode128]).phase = .done ∧ (done128 [presents encode128]).rsp.status ≠ 0b11 ∧
      (done128 [presents encode128]).noReset 1 ∧ ∀ e ∈ (done128 [presents encode128]).inputs.take 1, e.rspReady = false) ∧
    (done128 [takes encode128]).edge.rst = false ∧ (done128 [takes encode128]).edge.rspReady = true := by
  refine ⟨⟨by decide, by decide, ?_, by decide⟩, by decide⟩
  show ∀ e ∈ [presents encode128], e.rst = false
  decide
theorem witness_AcceptancesAreSpaced :
    ∃ s t u : State, s.phase = .idle ∧ s.edge.reqValid = true ∧ (∀ k, s.noReset k) ∧ step s = .next t ∧
      0 ≤ latency (decodeRequest s.edge.request) s.draws + 1 ∧ core.run 0 t = .next u := by
  refine ⟨{ State.reset with inputs := [presents encode128] }, _, _, rfl, rfl, fun k e he => ?_, rfl, Nat.zero_le _, rfl⟩
  have h := List.mem_of_mem_take he
  simp at h
  subst h
  rfl
theorem witness_RequestPortIsSampledOnlyAtAcceptance :
    ((presents encode128).rst = Edge.quiet.rst ∧ (presents encode128).rspReady = Edge.quiet.rspReady ∧
      (presents encode128).hostReads = Edge.quiet.hostReads ∧ (busy128 []).phase ≠ .idle) ∧
    ∃ t, step (busy128 [presents encode128]) = .next t ∧ t.rsp ≠ (busy128 []).rsp := by
  refine ⟨by decide, _, rfl, by decide⟩
theorem witness_EveryStepKeepsGood : (done128 []).Good ∧ ∃ t, step (done128 []) = .next t := by
  refine ⟨⟨?_, ?_, ?_, ?_⟩, _, rfl⟩ <;> decide
theorem witness_UnspecifiedContentsAreUnobservable :
    State.reset.SameObservable { State.reset with req := encode128, rsp := rsp128, wait := 7 } := by
  constructor <;> decide
theorem witness_StreamRoundTrip : (respondTo (.encode 0 (-1) 0)).lenOut.toNat ≤ 19 := by decide
theorem witness_TruncatedStreamIsIoError :
    (List.replicate 18 (0x80 : Byte)).length < Config.maxBytes ∧ ∀ b ∈ List.replicate 18 (0x80 : Byte), b.getLsbD 7 = true := by decide
theorem witness_OverlongStreamIsInvalid :
    (List.replicate 19 (0x80 : Byte)).length = Config.maxBytes ∧ ∀ b ∈ List.replicate 19 (0x80 : Byte), b.getLsbD 7 = true := by decide
theorem witness_ReaderConsumesOneEncoding :
    (readFromStream [.byte 0x80, .byte 0x01]).1 = .ok 128 ∧
      (readFromStream (List.replicate 19 (.byte 0x80))).1 = .error .invalidSequence := by decide
theorem witness_CallerWidthRoundTrip : 128 ≤ 128 ∧ (widenCaller 8 0xFF).toNat = 255 := by decide
theorem witness_SignedCastKeepsPattern : 8 ≤ 128 ∧ (0x7F : BitVec 8).msb = false := by decide

end Sys2Proof.Tests
end

section
/-! PROOFS. The invariant of a good state (R27, R49), one lemma for each row of the phase transition table. -/

namespace Sys2Proof.Machine

variable {s : State}

/-- A good state's answered requests are a subsequence of its accepted ones, whatever its phase. -/
theorem State.Good.delivered_sublist_accepted (h : s.Good) :
    (s.delivered.map Transaction.req).Sublist s.accepted := by
  have horder := h.inOrder
  split at horder
  case isTrue => exact horder
  case isFalse => exact horder.trans (List.dropLast_sublist _)

/-- In a state that is not IDLE, a good state's answered requests leave out the one in flight. -/
theorem State.Good.delivered_sublist_dropLast (h : s.Good) (hp : s.phase ≠ .idle) :
    (s.delivered.map Transaction.req).Sublist s.accepted.dropLast := by
  simpa [hp] using h.inOrder

/-- In IDLE only the records matter: nothing is presented and nothing is in flight. -/
theorem State.good_of_idle (hp : s.phase = .idle) (answered : ∀ t ∈ s.delivered, t.rsp = respond t.req)
    (order : (s.delivered.map Transaction.req).Sublist s.accepted) : s.Good where
  presented hd := by simp [hp] at hd
  answered := answered
  inFlight hi := absurd hp hi
  inOrder := by simpa [hp] using order

/-- The input edges are no part of the invariant. -/
theorem State.Good.advance (h : s.Good) : s.advance.Good :=
  ⟨h.presented, h.answered, h.inFlight, h.inOrder⟩

/-- A BUSY edge before the completing one moves only the working state, of which the invariant says nothing. -/
theorem State.Good.busyEdge (h : s.Good) (left : Nat) : (s.busyEdge left).Good :=
  ⟨h.presented, h.answered, h.inFlight, h.inOrder⟩

/-- R181: the dropped transaction stays among the accepted ones and is never answered. -/
theorem State.Good.resetEdge (h : s.Good) : s.resetEdge.Good :=
  State.good_of_idle rfl h.answered h.delivered_sublist_accepted

/-- R183: the accepted request becomes the last of the record, and the answered ones precede it. -/
theorem State.Good.accept (h : s.Good) (r : Request) : (s.accept r).Good where
  presented hd := by simp at hd
  answered := h.answered
  inFlight _ := by simp
  inOrder := by simpa using h.delivered_sublist_accepted

/-- R185: completing with Op of the latched request keeps the transaction in flight. -/
theorem State.Good.complete (h : s.Good) (hp : s.phase = .busy) : (s.complete (respond s.req)).Good where
  presented _ := rfl
  answered := h.answered
  inFlight _ := h.inFlight (by simp [hp])
  inOrder := by simpa using h.delivered_sublist_dropLast (by simp [hp])

/-- R186: the request handed off is the last accepted one, so its answer comes after every earlier one. -/
theorem State.Good.deliver (h : s.Good) (hp : s.phase = .done) : s.deliver.Good := by
  have hactive : s.phase ≠ .idle := by simp [hp]
  have hlast : s.accepted.dropLast ++ [s.req] = s.accepted :=
    List.dropLast_append_getLast? _ (h.inFlight hactive)
  refine State.good_of_idle rfl ?answered ?order
  case answered =>
    simpa [or_imp, forall_and] using And.intro h.answered (h.presented hp)
  case order =>
    have horder := (h.delivered_sublist_dropLast hactive).append_right [s.req]
    rw [hlast] at horder
    simpa using horder

/-- Settles O37: each row of the phase transition table keeps the invariant. -/
theorem everyStepKeepsGood : Obligations.EveryStepKeepsGood := by
  intro s t h hstep
  obtain ⟨-, hrow⟩ := step_cases s t hstep
  rcases hrow with ⟨-, rfl⟩ | ⟨-, -, -, rfl⟩ | ⟨-, -, -, rfl⟩ | ⟨-, hbusy, -, rfl⟩ | ⟨-, -, left, -, rfl⟩ |
    ⟨-, hdone, -, rfl⟩ | ⟨-, -, -, rfl⟩
  · exact h.advance.resetEdge
  · exact h.advance.accept _
  · exact h.advance
  · exact h.advance.complete hbusy
  · exact h.busyEdge left
  · exact h.advance.deliver hdone
  · exact h.advance

/-- Settles O36: IDLE with both records empty. -/
theorem resetStateIsGood : Obligations.ResetStateIsGood :=
  ⟨State.good_of_idle rfl (by simp [State.reset]) (List.nil_sublist _), rfl⟩

end Sys2Proof.Machine
end

section
/-! PROOFS. Noninterference of the unspecified contents (R28, R29, R31): the outputs and every row of the phase transition table read REQ, RSP and the working state only where they are specified. -/

namespace Sys2Proof.Machine

variable {s t : State}

/-- States that agree in IDLE on everything but REQ, RSP and the working state are the same to the host. -/
theorem State.sameObservable_of_idle (hs : s.phase = .idle) (ht : t.phase = .idle) (inputs : s.inputs = t.inputs)
    (draws : s.draws = t.draws) (accepted : s.accepted = t.accepted) (delivered : s.delivered = t.delivered) :
    s.SameObservable t where
  phase := hs.trans ht.symm
  inputs := inputs
  draws := draws
  accepted := accepted
  delivered := delivered
  req hi := absurd hs hi
  rsp hd := by simp [hs] at hd
  wait hb := by simp [hs] at hb

/-! ### What the host sees -/

theorem State.SameObservable.edge_eq (h : s.SameObservable t) : s.edge = t.edge := by
  simp [State.edge, h.inputs]

theorem State.SameObservable.reqReady_eq (h : s.SameObservable t) : s.reqReady = t.reqReady := by
  simp [State.reqReady, h.phase, h.edge_eq]

theorem State.SameObservable.rspValid_eq (h : s.SameObservable t) : s.rspValid = t.rspValid := by
  simp [State.rspValid, h.phase, h.edge_eq]

/-- R23: the response is valid only in DONE. -/
theorem State.phase_of_rspValid (hv : s.rspValid = true) : s.phase = .done := by
  simp only [State.rspValid, Bool.and_eq_true, beq_iff_eq] at hv
  exact hv.1

/-- R29: the outputs carry RSP only while it is valid, hence only where the two states agree on it. -/
theorem State.SameObservable.rspOutputs_eq (h : s.SameObservable t) : s.rspOutputs = t.rspOutputs := by
  unfold State.rspOutputs
  rw [← h.rspValid_eq]
  split
  case isTrue hv => rw [h.rsp (State.phase_of_rspValid hv)]
  case isFalse => rfl

theorem State.SameObservable.readFault_eq (h : s.SameObservable t) : s.readFault = t.readFault := by
  simp only [State.readFault, h.edge_eq, h.rspOutputs_eq]

/-! ### The rows of the phase transition table -/

theorem State.SameObservable.advance (h : s.SameObservable t) : s.advance.SameObservable t.advance :=
  { h with inputs := congrArg List.tail h.inputs }

/-- The free values of a reset edge are drawn by the same counter; after it they are unobservable in any case. -/
theorem State.SameObservable.resetEdge (h : s.SameObservable t) : s.resetEdge.SameObservable t.resetEdge :=
  State.sameObservable_of_idle rfl rfl h.inputs (congrArg (· + 1) h.draws) h.accepted h.delivered

/-- R183: acceptance writes REQ and the working state, and RSP stays unspecified. -/
theorem State.SameObservable.accept (h : s.SameObservable t) (r : Request) :
    (s.accept r).SameObservable (t.accept r) where
  phase := rfl
  inputs := h.inputs
  draws := by simp [h.draws]
  accepted := by simp [h.accepted]
  delivered := h.delivered
  req _ := rfl
  rsp hd := by simp at hd
  wait _ := by simp [h.draws]

theorem State.SameObservable.busyEdge (h : s.SameObservable t) (left : Nat) :
    (s.busyEdge left).SameObservable (t.busyEdge left) :=
  { h.advance with wait := fun _ => rfl }

/-- R185: completion writes RSP and needs the two states to agree on REQ, as they do in BUSY. -/
theorem State.SameObservable.complete (h : s.SameObservable t) (hp : s.phase = .busy) (r : Response) :
    (s.complete r).SameObservable (t.complete r) where
  phase := rfl
  inputs := h.inputs
  draws := h.draws
  accepted := h.accepted
  delivered := h.delivered
  req _ := h.req (by simp [hp])
  rsp _ := rfl
  wait hb := by simp at hb

/-- R186: the hand-off records REQ and RSP, on which the two states agree in DONE. -/
theorem State.SameObservable.deliver (h : s.SameObservable t) (hp : s.phase = .done) :
    s.deliver.SameObservable t.deliver :=
  State.sameObservable_of_idle rfl rfl h.inputs h.draws h.accepted
    (by simp [h.delivered, h.req (by simp [hp]), h.rsp hp])

theorem State.SameObservable.idleEdge (h : s.SameObservable t) : s.idleEdge.SameObservable t.idleEdge := by
  unfold State.idleEdge
  rw [← h.edge_eq]
  split
  case isTrue => exact h.advance.accept _
  case isFalse => exact h.advance

theorem State.SameObservable.doneEdge (h : s.SameObservable t) (hp : s.phase = .done) :
    s.doneEdge.SameObservable t.doneEdge := by
  unfold State.doneEdge
  rw [← h.edge_eq]
  split
  case isTrue => exact h.advance.deliver hp
  case isFalse => exact h.advance

/-- Without a read fault, both states step, and to states that again differ only in unspecified contents. -/
theorem State.SameObservable.step_next (h : s.SameObservable t) (hf : s.readFault = none) :
    ∃ s' t', step s = .next s' ∧ step t = .next t' ∧ s'.SameObservable t' := by
  have hft : t.readFault = none := h.readFault_eq ▸ hf
  have hedge := h.edge_eq
  cases hr : s.edge.rst with
  | true => exact ⟨_, _, step_reset s hf hr, step_reset t hft (hedge ▸ hr), h.advance.resetEdge⟩
  | false =>
    have hrt : t.edge.rst = false := hedge ▸ hr
    cases hp : s.phase with
    | idle => exact ⟨_, _, step_idle s hf hr hp, step_idle t hft hrt (h.phase ▸ hp), h.idleEdge⟩
    | busy =>
      have hpt : t.phase = .busy := h.phase ▸ hp
      have hwait := h.wait hp
      have hreq : s.req = t.req := h.req (by simp [hp])
      cases hw : s.wait with
      | zero =>
        refine ⟨_, _, step_complete s hf hr hp hw, step_complete t hft hrt hpt (hwait ▸ hw), ?_⟩
        rw [← hreq]
        exact h.advance.complete hp _
      | succ left =>
        exact ⟨_, _, step_busy s left hf hr hp hw, step_busy t left hft hrt hpt (hwait ▸ hw), h.busyEdge left⟩
    | done => exact ⟨_, _, step_done s hf hr hp, step_done t hft hrt (h.phase ▸ hp), h.doneEdge hp⟩

/-- Settles O38: the outputs agree, and so do the read fault or else the row of the phase transition table taken. -/
theorem unspecifiedContentsAreUnobservable : Obligations.UnspecifiedContentsAreUnobservable := by
  intro s t h
  refine ⟨h.reqReady_eq, h.rspValid_eq, h.rspOutputs_eq, ?_⟩
  cases hf : s.readFault with
  | some f => exact .inl ⟨f, step_fault s f hf, step_fault t f (h.readFault_eq ▸ hf)⟩
  | none => exact .inr (h.step_next hf)

end Sys2Proof.Machine
end

section
/-! PROOFS. The presentation of a caller's slice (R47): the window presented holds the slice's bytes at every position that the scan of the whole slice examines. -/

namespace Sys2Proof.Machine

/-! ### What the scan of a byte list finds -/

/-- R70, R71: a length is found exactly at the first byte, within MAX_BYTES positions, whose continuation bit is clear. -/
theorem encodingLength_eq_some_iff (bs : List Byte) (len : Nat) :
    encodingLength bs = some len ↔
      ∃ t, ∃ ht : t < bs.length, t < Config.maxBytes ∧ len = t + 1 ∧ continues bs[t] = false ∧
        ∀ i, ∀ hi : i < t, continues bs[i] = true := by
  simp only [encodingLength, terminator, Option.map_eq_some_iff, List.findIdx?_eq_some_iff_getElem,
    List.length_take, List.getElem_take, Nat.lt_min]
  constructor
  · rintro ⟨t, ⟨⟨hmax, ht⟩, hclear, hset⟩, rfl⟩
    exact ⟨t, ht, hmax, rfl, by simpa using hclear, fun i hi => by simpa using hset i hi⟩
  · rintro ⟨t, ht, hmax, rfl, hclear, hset⟩
    exact ⟨t, ⟨⟨hmax, ht⟩, by simpa using hclear, fun i hi => by simpa using hset i hi⟩, rfl⟩

/-- R71: no length is found exactly where every byte within MAX_BYTES positions has its continuation bit set. -/
theorem encodingLength_eq_none_iff (bs : List Byte) :
    encodingLength bs = none ↔
      ∀ i, ∀ hi : i < bs.length, i < Config.maxBytes → continues bs[i] = true := by
  simp only [encodingLength, terminator, Option.map_eq_none_iff, List.findIdx?_eq_none_iff,
    Bool.not_eq_false', List.forall_mem_iff_getElem, List.length_take, List.getElem_take, Nat.lt_min]
  exact ⟨fun h i hi hmax => h i ⟨hmax, hi⟩, fun h i hi => h i hi.2 hi.1⟩

/-! ### The presented slice -/

section Presented

variable (slice : List Byte) (rest : Window)

theorem toNat_presentSlice_count : (presentSlice slice rest).1.toNat = min slice.length Config.maxBytes :=
  toNat_countOf _ (by rw [maxBytes_eq]; omega)

theorem scanLimit_presentSlice : scanLimit (presentSlice slice rest).1 = min slice.length Config.maxBytes := by
  simp [scanLimit, toNat_presentSlice_count]

/-- The don't-care bytes lie above the slice. -/
theorem byteAt_presentSlice (i : Nat) (hi : i < slice.length) (hmax : i < Config.maxBytes) :
    byteAt (presentSlice slice rest).2 i = slice[i] := by
  have htake : i < (slice.take (min slice.length Config.maxBytes)).length := by
    rw [List.length_take]; omega
  rw [presentSlice, byteAt_windowOfBytes _ _ hmax, List.getD_eq_getElem _ _ (by rw [List.length_append]; omega),
    List.getElem_append_left htake, List.getElem_take]

/-- The first bytes of the window presented are the first bytes of the slice. -/
theorem map_byteAt_presentSlice (n : Nat) (hn : n ≤ slice.length) (hmax : n ≤ Config.maxBytes) :
    (List.range n).map (byteAt (presentSlice slice rest).2) = slice.take n := by
  apply List.ext_getElem
  · simp [hn]
  · intro i hi _
    have hin : i < n := by simpa using hi
    simp only [List.getElem_map, List.getElem_range, List.getElem_take]
    exact byteAt_presentSlice slice rest i (by omega) (by omega)

/-- Where the slice begins with an encoding within MAX_BYTES positions, PEEK answers its length and DECODE its length and value. -/
theorem responses_presentSlice_of_some (len : Nat) (h : encodingLength slice = some len) :
    len < 32 ∧
      peekResponse (presentSlice slice rest).1 (presentSlice slice rest).2 = lengthResponse len ∧
      decodeResponse (presentSlice slice rest).1 (presentSlice slice rest).2 =
        decodedResponse len (BitVec.ofNat 128 (encodingValue (slice.take len))) := by
  obtain ⟨t, ht, hmax, rfl, hclear, hset⟩ := (encodingLength_eq_some_iff slice len).mp h
  have hlimit : t < scanLimit (presentSlice slice rest).1 := by
    rw [scanLimit_presentSlice]; omega
  have hset' : ∀ i < t, continues (byteAt (presentSlice slice rest).2 i) = true := fun i hi => by
    rw [byteAt_presentSlice slice rest i (by omega) (by omega)]
    exact hset i hi
  have hclear' : continues (byteAt (presentSlice slice rest).2 t) = false := by
    rwa [byteAt_presentSlice slice rest t ht hmax]
  refine ⟨by rw [maxBytes_eq] at hmax; omega, peekResponse_found _ _ t hlimit hset' hclear', ?_⟩
  rw [decodeResponse_found _ _ t hlimit hset' hclear', map_byteAt_presentSlice slice rest (t + 1) ht hmax]

/-- Where the slice has no encoding within MAX_BYTES positions, PEEK and DECODE answer INVALID_SEQUENCE. -/
theorem responses_presentSlice_of_none (h : encodingLength slice = none) :
    peekResponse (presentSlice slice rest).1 (presentSlice slice rest).2 = raiseInvalidSequence ∧
      decodeResponse (presentSlice slice rest).1 (presentSlice slice rest).2 = raiseInvalidSequence := by
  have hset : ∀ i < scanLimit (presentSlice slice rest).1,
      continues (byteAt (presentSlice slice rest).2 i) = true := fun i hi => by
    rw [scanLimit_presentSlice, Nat.lt_min] at hi
    rw [byteAt_presentSlice slice rest i hi.1 hi.2]
    exact (encodingLength_eq_none_iff slice).mp h i hi.1 hi.2
  exact ⟨peekResponse_absent _ _ hset, decodeResponse_invalid _ _ hset⟩

end Presented

/-- Settles O26: the two outcomes of the scan of the whole slice, each carried over to the window presented. -/
theorem slicePresentationIsFaithful : Obligations.SlicePresentationIsFaithful := by
  intro slice rest v s t u
  refine ⟨toNat_presentSlice_count slice rest, fun hpeek hdecode => ?_⟩
  simp only [exec_eq, respondTo, Host.Outcome.next.injEq] at hpeek hdecode
  subst hpeek hdecode
  cases hlen : encodingLength slice with
  | some len =>
    obtain ⟨hlt, hpeek, hdecode⟩ := responses_presentSlice_of_some slice rest len hlen
    have hcount := toNat_countOf len hlt
    simp [hpeek, hdecode, lengthResponse, decodedResponse, statusOk, hcount]
  | none =>
    obtain ⟨hpeek, hdecode⟩ := responses_presentSlice_of_none slice rest hlen
    simp [hpeek, hdecode, raiseInvalidSequence, errorResponse, statusInvalidSequence]

end Sys2Proof.Machine
end

section
/-! PROOFS. The fields of a bundle (R60, R61) and the rows of the opcode table (R62): a field read off a bundle is the field laid out there, and a row selects by the decoded operation. -/

namespace Sys2Proof

/-! ### The fields of a bundle, request or response -/

section Bundle

variable (w : Window) (v : Value) (c : Count) (o : Code)

theorem getLsbD_bundle_code (k : Nat) (hk : k < 2) : (w ++ (v ++ (c ++ o)) : Bundle).getLsbD k = o.getLsbD k := by
  rw [getLsbD_bundle, if_pos hk]

theorem getLsbD_bundle_count (k : Nat) (hk : k < 5) :
    (w ++ (v ++ (c ++ o)) : Bundle).getLsbD (2 + k) = c.getLsbD k := by
  rw [getLsbD_bundle, if_neg (by omega), if_pos (by omega), Nat.add_sub_cancel_left]

theorem getLsbD_bundle_value (k : Nat) (hk : k < 128) :
    (w ++ (v ++ (c ++ o)) : Bundle).getLsbD (7 + k) = v.getLsbD k := by
  rw [getLsbD_bundle, if_neg (by omega), if_neg (by omega), if_pos (by omega), Nat.add_sub_cancel_left]

theorem getLsbD_bundle_window (k : Nat) : (w ++ (v ++ (c ++ o)) : Bundle).getLsbD (135 + k) = w.getLsbD k := by
  rw [getLsbD_bundle, if_neg (by omega), if_neg (by omega), if_neg (by omega), Nat.add_sub_cancel_left]

/-- R43: within the window's field, byte i is bits 8i+7 .. 8i. -/
theorem getLsbD_bundle_byte (i k : Nat) (hk : k < 8) :
    (w ++ (v ++ (c ++ o)) : Bundle).getLsbD (135 + (8 * i + k)) = (Machine.byteAt w i).getLsbD k := by
  rw [getLsbD_bundle_window, Machine.getLsbD_byteAt _ _ _ hk]

/-- A field is extracted from where its bits stand. -/
theorem extractLsb'_eq_of_getLsbD {n m : Nat} (b : BitVec n) (x : BitVec m) (start : Nat)
    (h : ∀ k < m, b.getLsbD (start + k) = x.getLsbD k) : b.extractLsb' start m = x := by
  apply BitVec.eq_of_getLsbD_eq
  intro k hk
  rw [BitVec.getLsbD_extractLsb', h k hk, decide_eq_true hk, Bool.true_and]

theorem extractLsb'_bundle_code : (w ++ (v ++ (c ++ o)) : Bundle).extractLsb' 0 2 = o :=
  extractLsb'_eq_of_getLsbD _ o 0 (by simpa using getLsbD_bundle_code w v c o)

theorem extractLsb'_bundle_count : (w ++ (v ++ (c ++ o)) : Bundle).extractLsb' 2 5 = c :=
  extractLsb'_eq_of_getLsbD _ c 2 (getLsbD_bundle_count w v c o)

theorem extractLsb'_bundle_value : (w ++ (v ++ (c ++ o)) : Bundle).extractLsb' 7 128 = v :=
  extractLsb'_eq_of_getLsbD _ v 7 (getLsbD_bundle_value w v c o)

theorem extractLsb'_bundle_window : (w ++ (v ++ (c ++ o)) : Bundle).extractLsb' 135 152 = w :=
  extractLsb'_eq_of_getLsbD _ w 135 fun k _ => getLsbD_bundle_window w v c o k

end Bundle

theorem Machine.Response.unpack_pack (r : Response) : Response.unpack r.pack = r := by
  simp only [Response.unpack, Response.pack, extractLsb'_bundle_code, extractLsb'_bundle_count,
    extractLsb'_bundle_value, extractLsb'_bundle_window]

/-- Settles O4: the positions of the four fields of any bundle, read with the response's fields. -/
theorem responseFieldPositions : Obligations.ResponseFieldPositions := fun r =>
  ⟨getLsbD_bundle_code _ _ _ _, getLsbD_bundle_count _ _ _ _, getLsbD_bundle_value _ _ _ _,
    fun k _ => getLsbD_bundle_window _ _ _ _ k, fun i _ k hk => getLsbD_bundle_byte _ _ _ _ i k hk, r.unpack_pack⟩

/-! ### The rows of the opcode table -/

/-- Every row of the table masks the bundle to its OP field. -/
theorem OpcodeRow.selects_iff (row : OpcodeRow) (hrow : row ∈ opcodeTable) (b : Bundle) :
    row.selects b = true ↔ (b.extractLsb' 0 2).toNat = row.pattern := by
  have hmask : row.mask = 3 := by
    have : ∀ row ∈ opcodeTable, row.mask = 3 := by decide
    exact this row hrow
  have hlow : b.toNat &&& 3 = b.toNat % 4 := Nat.and_two_pow_sub_one_eq_mod b.toNat 2
  simp [OpcodeRow.selects, hmask, hlow, BitVec.extractLsb'_toNat]

/-- The rows are told apart by their OP values as by their mnemonics. -/
theorem OpcodeRow.pattern_eq_op_iff (i : Instr) :
    ∀ row ∈ opcodeTable, i.op.toNat = row.pattern ↔ row.mnemonic = i.mnemonic := by
  cases i <;> simp [opcodeTable, Instr.op, Instr.mnemonic, opEncode, opDecode, opPeek, opReserved]

/-- The decoder reads the operation off OP and nothing else. -/
theorem op_decodeRequest (r : Request) : (decodeRequest r).op = r.op := by
  have hvalues : ∀ o : BitVec 2, o = opEncode ∨ o = opDecode ∨ o = opPeek ∨ o = opReserved := by decide
  rcases hvalues r.op with h | h | h | h <;>
    simp [decodeRequest, h, Instr.op, opEncode, opDecode, opPeek, opReserved]

/-- Settles O5: a row selects by the bundle's OP, which is the OP of the decoded instruction, and that names the row. -/
theorem opSelectsExactlyOneRow : Obligations.OpSelectsExactlyOneRow := by
  refine ⟨fun b row hrow => ?_, fun a v w => ⟨rfl, rfl, rfl, rfl⟩⟩
  have hop : (decodeBundle b).op = b.extractLsb' 0 2 := op_decodeRequest (Request.unpack b)
  rw [row.selects_iff hrow, ← hop, OpcodeRow.pattern_eq_op_iff _ row hrow]

end Sys2Proof
end

section
/-! PROOFS. Well-formed encodings (R69, R72, R73): an encoding is determined by its length and its value, the minimal one is the canonical one, and ENCODE leaves that one in the window. -/

namespace Sys2Proof.Machine

/-! ### The shape of a well-formed encoding -/

theorem isEncoding_append_singleton (init : List Byte) (last : Byte) :
    isEncoding (init ++ [last]) = (init.all continues && !continues last) := by
  induction init with
  | nil => simp [isEncoding]
  | cons b init ih =>
    have hcons : isEncoding (b :: (init ++ [last])) = (continues b && isEncoding (init ++ [last])) := by
      cases init <;> rfl
    rw [List.cons_append, hcons, ih, List.all_cons, Bool.and_assoc]

/-- R69: continuation bytes, then one terminating byte. -/
theorem isEncoding_iff (bs : List Byte) :
    isEncoding bs = true ↔
      ∃ init last, bs = init ++ [last] ∧ (∀ b ∈ init, continues b = true) ∧ continues last = false := by
  constructor
  · intro h
    rcases List.eq_nil_or_concat bs with rfl | ⟨init, last, rfl⟩
    · simp [isEncoding] at h
    · rw [List.concat_eq_append, isEncoding_append_singleton] at h
      exact ⟨init, last, by simpa using h⟩
  · rintro ⟨init, last, rfl, hset, hclear⟩
    rw [isEncoding_append_singleton]
    simpa using ⟨hset, hclear⟩

/-- Continuation bits and value together determine a byte sequence: each byte is a group of seven bits (R41). -/
theorem eq_of_encodingValue_eq {as bs : List Byte} (hbits : as.map continues = bs.map continues)
    (hvalue : encodingValue as = encodingValue bs) : as = bs := by
  induction as generalizing bs with
  | nil => simpa using hbits
  | cons a as ih =>
    cases bs with
    | nil => simp at hbits
    | cons b bs =>
      obtain ⟨hbit, hbits⟩ := List.cons_eq_cons.mp hbits
      rw [encodingValue_cons, encodingValue_cons] at hvalue
      have ha := payload_lt a
      have hb := payload_lt b
      rw [byte_ext a b hbit (by omega), ih hbits (by omega)]

/-- The continuation bits of a well-formed encoding depend on its length only. -/
theorem map_continues_of_isEncoding {bs : List Byte} (h : isEncoding bs = true) :
    bs.map continues = List.replicate (bs.length - 1) true ++ [false] := by
  obtain ⟨init, last, rfl, hset, hclear⟩ := (isEncoding_iff bs).mp h
  simp [hclear, List.map_eq_replicate_iff.mpr hset]

/-- R72: there is at most one well-formed encoding of a value in each length. -/
theorem isEncoding_ext {as bs : List Byte} (ha : isEncoding as = true) (hb : isEncoding bs = true)
    (hlength : as.length = bs.length) (hvalue : encodingValue as = encodingValue bs) : as = bs :=
  eq_of_encodingValue_eq
    (by rw [map_continues_of_isEncoding ha, map_continues_of_isEncoding hb, hlength]) hvalue

/-! ### The canonical encoding -/

/-- Induction over the seven-bit groups of a value, as the loop of R80 goes through them. -/
theorem sevenBitGroups_induction {P : Nat → Prop} (small : ∀ v < 128, P v)
    (step : ∀ v, 128 ≤ v → P (v >>> 7) → P v) (v : Nat) : P v := by
  induction v using Nat.strongRecOn with
  | ind v ih =>
    rcases Nat.lt_or_ge v 128 with h | h
    · exact small v h
    · exact step v h (ih _ (by rw [Nat.shiftRight_eq_div_pow]; omega))

theorem isEncoding_canonicalBytes (v : Nat) : isEncoding (canonicalBytes v) = true := by
  induction v using sevenBitGroups_induction with
  | small v h =>
    have hmod : v % 256 = v := Nat.mod_eq_of_lt (by omega)
    simp [canonicalBytes_small v h, isEncoding, continues_iff, hmod, h]
  | step v h ih =>
    obtain ⟨init, last, heq, hset, hclear⟩ := (isEncoding_iff _).mp ih
    refine (isEncoding_iff _).mpr ⟨continuationByte v :: init, last, ?_, ?_, hclear⟩
    · rw [canonicalBytes_step v h, heq, List.cons_append]
    · have hfirst : continues (continuationByte v) = true := by
        simp [continues_iff, toNat_continuationByte]
      simpa [hfirst] using hset

theorem encodingValue_canonicalBytes (v : Nat) : encodingValue (canonicalBytes v) = v := by
  induction v using sevenBitGroups_induction with
  | small v h =>
    simp only [canonicalBytes_small v h, encodingValue_cons, encodingValue_nil, payload_eq, BitVec.toNat_ofNat]
    omega
  | step v h ih =>
    rw [canonicalBytes_step v h, encodingValue_cons, ih, payload_eq, toNat_continuationByte,
      Nat.shiftRight_eq_div_pow]
    omega

/-- R72: the canonical encoding is the well-formed encoding of the canonical length. -/
theorem length_eq_canonicalLength_iff {bs : List Byte} (h : isEncoding bs = true) :
    bs.length = canonicalLength (encodingValue bs) ↔ bs = canonicalBytes (encodingValue bs) := by
  constructor
  · intro hlength
    exact isEncoding_ext h (isEncoding_canonicalBytes _) (by rw [hlength, length_canonicalBytes])
      (encodingValue_canonicalBytes _).symm
  · intro heq
    rw [← length_canonicalBytes, ← heq]

/-- A terminating byte is 0x00 exactly when its payload is 0. -/
theorem eq_zero_iff_payload {b : Byte} (h : continues b = false) : b = 0x00 ↔ payload b = 0 :=
  ⟨fun hb => by rw [hb]; rfl, fun hp => byte_ext b 0x00 (by rw [h]; rfl) (by rw [hp]; rfl)⟩

theorem encodingValue_append_singleton (init : List Byte) (last : Byte) :
    encodingValue (init ++ [last]) = encodingValue init + 128 ^ init.length * payload last := by
  rw [encodingValue_append, encodingValue_cons, encodingValue_nil, Nat.mul_zero, Nat.add_zero]

/-- The last byte is needed exactly when its payload is not 0. -/
theorem encodingValue_append_singleton_lt_iff (init : List Byte) (last : Byte) :
    encodingValue (init ++ [last]) < 128 ^ init.length ↔ payload last = 0 := by
  rw [encodingValue_append_singleton]
  constructor
  · intro h
    by_contra hp
    have := Nat.le_mul_of_pos_right (128 ^ init.length) (Nat.pos_of_ne_zero hp)
    omega
  · intro h
    simpa [h] using encodingValue_lt init

theorem isMinimal_iff (bs : List Byte) : isMinimal bs = true ↔ bs.length = 1 ∨ bs.getLast? ≠ some 0x00 := by
  simp [isMinimal]

/-- R72: the test on the last byte finds the encodings of the canonical length. -/
theorem isMinimal_iff_length {bs : List Byte} (h : isEncoding bs = true) :
    isMinimal bs = true ↔ bs.length = canonicalLength (encodingValue bs) := by
  obtain ⟨init, last, rfl, -, hclear⟩ := (isEncoding_iff bs).mp h
  have hfits : canonicalLength (encodingValue (init ++ [last])) ≤ init.length + 1 := by
    rw [canonicalLength_le_iff _ _ (by omega)]
    simpa using encodingValue_lt (init ++ [last])
  have hpos := canonicalLength_pos (encodingValue (init ++ [last]))
  rw [isMinimal_iff, List.length_append, List.length_singleton, List.getLast?_concat]
  rcases Nat.eq_zero_or_pos init.length with hzero | hinit
  · exact iff_of_true (.inl (by omega)) (by omega)
  · have hlast : canonicalLength (encodingValue (init ++ [last])) ≤ init.length ↔ last = 0x00 := by
      rw [canonicalLength_le_iff _ _ hinit, encodingValue_append_singleton_lt_iff, eq_zero_iff_payload hclear]
    rw [ne_eq, Option.some_inj, ← hlast]
    omega

/-! ### What ENCODE leaves in the window -/

theorem status_encodeResponse (v : Value) : (encodeResponse v).status = statusOk := rfl

theorem valueOut_encodeResponse (v : Value) : (encodeResponse v).valueOut = 0 := rfl

theorem encodeResponse_packed (v : Value) :
    (encodeResponse v).lenOut.toNat = canonicalLength v.toNat ∧
      ∀ i < 19, byteAt (encodeResponse v).bytesOut i =
        if i < canonicalLength v.toNat then canonicalByte v.toNat (canonicalLength v.toNat) i else 0x00 := by
  have hv : v.toNat < 128 ^ (18 + 1) := Nat.lt_of_lt_of_le v.isLt (by norm_num)
  obtain ⟨hcounter, hbytes⟩ := packLoop_spec 18 v.toNat 0 0 hv (by omega)
  have hle := canonicalLength_le v
  constructor
  · show (countOf (packLoop 18 v.toNat 0 0).2).toNat = _
    rw [hcounter, toNat_countOf _ (by omega), Nat.zero_add]
  · intro i hi
    show byteAt (packLoop 18 v.toNat 0 0).1 i = _
    simpa using hbytes i hi

theorem lenOut_encodeResponse (v : Value) : (encodeResponse v).lenOut.toNat = canonicalLength v.toNat :=
  (encodeResponse_packed v).1

/-- R81: the canonical encoding of the value, then 0x00 up to the end of the window. -/
theorem windowBytes_encodeResponse (v : Value) :
    windowBytes (encodeResponse v).bytesOut =
      canonicalBytes v.toNat ++ List.replicate (19 - canonicalLength v.toNat) 0x00 := by
  have hle := canonicalLength_le v
  apply List.ext_getElem
  · simp
    omega
  · intro i hi _
    rw [length_windowBytes] at hi
    rw [getElem_windowBytes, (encodeResponse_packed v).2 i hi]
    simp [List.getElem_append, canonicalBytes]

theorem encodedView_encodeResponse (v : Value) : encodedView (encodeResponse v) = canonicalBytes v.toNat := by
  rw [encodedView, windowBytes_encodeResponse, lenOut_encodeResponse, ← length_canonicalBytes, List.take_left]

/-- Settles O11: the canonical length and minimality each single out the canonical encoding, which ENCODE emits. -/
theorem encodeOutputIsCanonical : Obligations.EncodeOutputIsCanonical := by
  intro a v b s t hexec bs hbs hvalue
  rw [exec_eq, Host.Outcome.next.injEq] at hexec
  subst hexec
  rw [State.complete_rsp, respondTo, encodedView_encodeResponse, ← hvalue, ← isMinimal_iff,
    isMinimal_iff_length hbs]
  exact ⟨length_eq_canonicalLength_iff hbs, length_eq_canonicalLength_iff hbs⟩

end Sys2Proof.Machine
end

section
/-! PROOFS. What the units answer, field by field (R66), and which fields and window bytes the answer depends on (R64, R65). -/

namespace Sys2Proof.Machine

/-! ### The response fields of each operation and outcome -/

theorem take_windowBytes (w : Window) (n : Nat) (hn : n ≤ 19) :
    (windowBytes w).take n = (List.range n).map (byteAt w) := by
  rw [windowBytes, ← List.map_take, List.take_range, maxBytes_eq, Nat.min_eq_left hn]

/-- R66, the two rows of PEEK. -/
theorem peekResponse_fields (a : Count) (w : Window) :
    ((peekResponse a w).status = statusOk ∧ 1 ≤ (peekResponse a w).lenOut.toNat ∧
      (peekResponse a w).lenOut.toNat ≤ scanLimit a ∧
      (peekResponse a w).valueOut = 0 ∧ (peekResponse a w).bytesOut = 0) ∨
      peekResponse a w = raiseInvalidSequence := by
  rcases scan_cases a w with ⟨t, ht, hset, hclear⟩ | hset
  · have hlimit := scanLimit_le a
    have hlen : (countOf (t + 1)).toNat = t + 1 := toNat_countOf _ (by omega)
    rw [peekResponse_found a w t ht hset hclear, lengthResponse, hlen]
    exact .inl ⟨rfl, by omega, ht, rfl, rfl⟩
  · exact .inr (peekResponse_absent a w hset)

/-- R66, the two rows of DECODE. -/
theorem decodeResponse_fields (a : Count) (w : Window) :
    ((decodeResponse a w).status = statusOk ∧ 1 ≤ (decodeResponse a w).lenOut.toNat ∧
      (decodeResponse a w).lenOut.toNat ≤ scanLimit a ∧
      (decodeResponse a w).valueOut.toNat =
        encodingValue ((windowBytes w).take (decodeResponse a w).lenOut.toNat) % 2 ^ 128 ∧
      (decodeResponse a w).bytesOut = 0) ∨
      decodeResponse a w = raiseInvalidSequence := by
  rcases scan_cases a w with ⟨t, ht, hset, hclear⟩ | hset
  · have hlimit := scanLimit_le a
    have hlen : (countOf (t + 1)).toNat = t + 1 := toNat_countOf _ (by omega)
    rw [decodeResponse_found a w t ht hset hclear, decodedResponse, hlen, take_windowBytes w _ (by omega)]
    exact .inl ⟨rfl, by omega, ht, BitVec.toNat_ofNat _ _, rfl⟩
  · exact .inr (decodeResponse_invalid a w hset)

/-- Settles O20: the response of each operation, by the operation's own lemma on its fields. -/
theorem responseFieldTable : Obligations.ResponseFieldTable := by
  intro i s t hexec
  rw [exec_eq, Host.Outcome.next.injEq] at hexec
  subst hexec
  rw [State.complete_rsp]
  cases i with
  | encode a v w =>
    refine ⟨status_encodeResponse v, ?_, ?_, valueOut_encodeResponse v, ?_⟩ <;>
      rw [respondTo, lenOut_encodeResponse]
    · exact canonicalLength_pos _
    · exact canonicalLength_le v
    · exact windowBytes_encodeResponse v
  | decode a v w => exact decodeResponse_fields a w
  | peek a v w => exact peekResponse_fields a w
  | rsvd a v w => rfl

/-! ### What the operations read -/

section Reached

variable {a : Count} {w w' : Window}

/-- Two windows with the same bit 7 in every byte that the scan of the first reaches: both scans stop at one byte, or neither stops. -/
theorem scan_cases_congr
    (h : ∀ j < scanLimit a, (∀ i < j, continues (byteAt w i) = true) →
      continues (byteAt w j) = continues (byteAt w' j)) :
    (∃ t, t < scanLimit a ∧
        ((∀ i < t, continues (byteAt w i) = true) ∧ continues (byteAt w t) = false) ∧
        (∀ i < t, continues (byteAt w' i) = true) ∧ continues (byteAt w' t) = false) ∨
      (∀ i < scanLimit a, continues (byteAt w i) = true) ∧
        ∀ i < scanLimit a, continues (byteAt w' i) = true := by
  have carry : ∀ n ≤ scanLimit a, (∀ i < n, continues (byteAt w i) = true) →
      ∀ i < n, continues (byteAt w' i) = true := fun n hn hset i hi => by
    rw [← h i (by omega) fun k hk => hset k (by omega)]
    exact hset i hi
  rcases scan_cases a w with ⟨t, ht, hset, hclear⟩ | hset
  · refine .inl ⟨t, ht, ⟨hset, hclear⟩, carry t (by omega) hset, ?_⟩
    rw [← h t ht hset, hclear]
  · exact .inr ⟨hset, carry _ (Nat.le_refl _) hset⟩

/-- R121: PEEK reads only bit 7 of the bytes that its scan reaches. -/
theorem peekResponse_congr
    (h : ∀ j < scanLimit a, (∀ i < j, continues (byteAt w i) = true) →
      continues (byteAt w j) = continues (byteAt w' j)) :
    peekResponse a w = peekResponse a w' := by
  rcases scan_cases_congr h with ⟨t, ht, ⟨hset, hclear⟩, hset', hclear'⟩ | ⟨hset, hset'⟩
  · rw [peekResponse_found a w t ht hset hclear, peekResponse_found a w' t ht hset' hclear']
  · rw [peekResponse_absent a w hset, peekResponse_absent a w' hset']

/-- R65: DECODE reads only the bytes that its scan reaches. -/
theorem decodeResponse_congr
    (h : ∀ j < scanLimit a, (∀ i < j, continues (byteAt w i) = true) → byteAt w j = byteAt w' j) :
    decodeResponse a w = decodeResponse a w' := by
  rcases scan_cases_congr fun j hj hset => congrArg continues (h j hj hset) with
    ⟨t, ht, ⟨hset, hclear⟩, hset', hclear'⟩ | ⟨hset, hset'⟩
  · have hread : (List.range (t + 1)).map (byteAt w) = (List.range (t + 1)).map (byteAt w') := by
      refine List.map_congr_left fun j hj => ?_
      have hjt : j < t + 1 := List.mem_range.mp hj
      exact h j (by omega) fun i hi => hset i (by omega)
    rw [decodeResponse_found a w t ht hset hclear, decodeResponse_found a w' t ht hset' hclear', hread]
  · rw [decodeResponse_invalid a w hset, decodeResponse_invalid a w' hset']

end Reached

/-- Settles O22: the response is a function of what the operation reads. -/
theorem unreadFieldsHaveNoEffect : Obligations.UnreadFieldsHaveNoEffect := by
  intro a a' v v' w w' s
  refine ⟨rfl, rfl, fun h => ?_, fun h => ?_⟩ <;> simp only [exec_eq, respondTo]
  · rw [decodeResponse_congr h]
  · rw [peekResponse_congr h]

/-- R64: counts above MAX_BYTES let the scans examine all MAX_BYTES bytes. -/
theorem scanLimit_of_maxBytes_le (a : Count) (h : Config.maxBytes ≤ a.toNat) : scanLimit a = 19 :=
  Nat.min_eq_right h

/-- Settles O21: AVAIL_IN enters both responses only through the number of bytes the scans may examine. -/
theorem largeCountsActAsMaxBytes : Obligations.LargeCountsActAsMaxBytes := by
  intro a v w s ha
  have hlimit : scanLimit a = scanLimit 19 := scanLimit_of_maxBytes_le a (Nat.le_of_lt ha)
  simp only [exec_eq, respondTo, decodeResponse, peekResponse, hlimit, and_self]

/-- Settles O19: the decoder's last branch, and the meaning of RSVD. -/
theorem reservedOpCompletes : Obligations.ReservedOpCompletes := by
  refine ⟨fun r hop => ?_, fun a v w s => exec_eq _ s⟩
  rw [decodeRequest, hop]
  rfl

end Sys2Proof.Machine
end

section
/-! PROOFS. DECODE of a well-formed encoding, the overflow of R73, and ENCODE of what DECODE answers. -/

namespace Sys2Proof.Machine

/-- R100: DECODE of a window that begins with a well-formed encoding answers its length and its value in W bits. -/
theorem decodeResponse_of_isEncoding {bs : List Byte} (h : isEncoding bs = true) (a : Count) (w : Window)
    (hlimit : bs.length ≤ scanLimit a) (hw : ∀ i, ∀ hi : i < bs.length, byteAt w i = bs[i]) :
    decodeResponse a w = decodedResponse bs.length (BitVec.ofNat 128 (encodingValue bs)) := by
  have hread : (List.range bs.length).map (byteAt w) = bs :=
    List.ext_getElem (by simp) fun i _ hi => by simpa using hw i hi
  obtain ⟨init, last, rfl, hset, hclear⟩ := (isEncoding_iff bs).mp h
  have hlength : (init ++ [last]).length = init.length + 1 := by simp
  have hset' : ∀ i < init.length, continues (byteAt w i) = true := fun i hi => by
    rw [hw i (by omega), List.getElem_append_left hi]
    exact hset _ (List.getElem_mem hi)
  have hclear' : continues (byteAt w init.length) = false := by
    rw [hw init.length (by omega), List.getElem_concat_length rfl]
    exact hclear
  rw [decodeResponse_found a w init.length (by omega) hset' hclear', ← hlength, hread]

/-- R141: DECODE over a buffer that holds a well-formed encoding of at most MAX_BYTES bytes. -/
theorem decodeBuffer_of_isEncoding {bs : List Byte} (h : isEncoding bs = true)
    (hmax : bs.length ≤ Config.maxBytes) :
    decodeBuffer bs = decodedResponse bs.length (BitVec.ofNat 128 (encodingValue bs)) := by
  rw [maxBytes_eq] at hmax
  have hlimit : scanLimit (countOf bs.length) = bs.length := by
    rw [scanLimit, toNat_countOf _ (by omega), maxBytes_eq, Nat.min_eq_left hmax]
  refine decodeResponse_of_isEncoding h _ _ (by rw [hlimit]) fun i hi => ?_
  rw [byteAt_windowOfBytes _ _ (by omega), List.getD_eq_getElem _ _ hi]

theorem overflowsWidth_append_singleton (init : List Byte) (last : Byte) :
    overflowsWidth (init ++ [last]) = true ↔ init.length = 18 ∧ 4 ≤ payload last := by
  simp only [overflowsWidth, List.length_append, List.length_singleton, List.getLast?_concat, Option.any_some,
    Bool.and_eq_true, beq_iff_eq]
  exact and_congr (by rw [maxBytes_eq]; omega) decide_eq_true_iff

/-- R73: within MAX_BYTES bytes, the last payload decides whether the value fits in W bits. -/
theorem overflowsWidth_iff {bs : List Byte} (h : isEncoding bs = true) (hmax : bs.length ≤ Config.maxBytes) :
    overflowsWidth bs = true ↔ 2 ^ 128 ≤ encodingValue bs := by
  obtain ⟨init, last, rfl, -, -⟩ := (isEncoding_iff bs).mp h
  rw [overflowsWidth_append_singleton]
  by_cases hlength : init.length = 18
  · have hinit := encodingValue_lt init
    rw [encodingValue_append_singleton]
    simp only [hlength, true_and] at hinit ⊢
    omega
  · have hshort : (init ++ [last]).length ≤ 18 := by
      simp only [maxBytes_eq, List.length_append, List.length_singleton] at hmax ⊢
      omega
    have hlt : encodingValue (init ++ [last]) < 128 ^ 18 :=
      Nat.lt_of_lt_of_le (encodingValue_lt _) (Nat.pow_le_pow_right (by omega) hshort)
    omega

/-- R73: an encoding that overflows is not longer than its value needs. -/
theorem isMinimal_of_overflowsWidth {bs : List Byte} (h : isEncoding bs = true) (hover : overflowsWidth bs = true) :
    isMinimal bs = true := by
  obtain ⟨init, last, rfl, -, hclear⟩ := (isEncoding_iff bs).mp h
  obtain ⟨-, hpayload⟩ := (overflowsWidth_append_singleton init last).mp hover
  have hlast : last ≠ 0x00 := fun hzero => by
    rw [(eq_zero_iff_payload hclear).mp hzero] at hpayload
    omega
  rw [isMinimal_iff, List.getLast?_concat, ne_eq, Option.some_inj]
  exact .inr hlast

/-- R73: a well-formed encoding is the canonical encoding of its value in W bits exactly when it is minimal and its value fits. -/
theorem canonicalBytes_mod_eq_iff {bs : List Byte} (h : isEncoding bs = true) :
    canonicalBytes (encodingValue bs % 2 ^ 128) = bs ↔ isMinimal bs = true ∧ encodingValue bs < 2 ^ 128 := by
  rw [isMinimal_iff_length h, length_eq_canonicalLength_iff h]
  constructor
  · intro heq
    have hvalue : encodingValue bs % 2 ^ 128 = encodingValue bs := by
      conv_rhs => rw [← heq, encodingValue_canonicalBytes]
    rw [hvalue] at heq
    exact ⟨heq.symm, by omega⟩
  · rintro ⟨heq, hfits⟩
    rw [Nat.mod_eq_of_lt hfits, ← heq]

/-- Settles O25: DECODE answers the value modulo 2^W, and the canonical encoding of that is the sequence itself exactly when nothing was dropped and the sequence is minimal. -/
theorem reencodingIsIdentityExactlyOnCanonical : Obligations.ReencodingIsIdentityExactlyOnCanonical := by
  intro bs h hmax
  have hover := overflowsWidth_iff h hmax
  have hvalue : (decodeBuffer bs).valueOut.toNat = encodingValue bs % 2 ^ 128 := by
    rw [decodeBuffer_of_isEncoding h hmax, decodedResponse, BitVec.toNat_ofNat]
  refine ⟨hover, isMinimal_of_overflowsWidth h, hvalue, ?_⟩
  rw [respondTo, encodedView_encodeResponse, hvalue, canonicalBytes_mod_eq_iff h, ← Bool.not_eq_true, hover,
    Nat.not_le]

end Sys2Proof.Machine
end

section
/-! PROOFS. ENCODE's response in full (R81, R82, R84): its bytes are those of the parallel form, its length is the least that holds the value, and its last byte is the only one with a clear continuation bit. -/

namespace Sys2Proof.Machine

/-! ### The response of ENCODE, byte by byte -/

section Response

variable (v : Value)

/-- R81, R66: the fields of the response, the window apart. -/
theorem encodeResponse_eq :
    encodeResponse v = ⟨statusOk, countOf (canonicalLength v.toNat), 0, (encodeResponse v).bytesOut⟩ := by
  rw [← lenOut_encodeResponse, countOf_toNat]
  rfl

variable {v} {i : Nat}

/-- R81: within LEN_OUT, the bytes of the parallel form. -/
theorem byteAt_encodeResponse_of_lt (h : i < canonicalLength v.toNat) :
    byteAt (encodeResponse v).bytesOut i = canonicalByte v.toNat (canonicalLength v.toNat) i := by
  have hle := canonicalLength_le v
  rw [(encodeResponse_packed v).2 i (by omega), if_pos h]

/-- R81, R45: from LEN_OUT on, zeros. -/
theorem byteAt_encodeResponse_of_le (h : canonicalLength v.toNat ≤ i) (hi : i < Config.maxBytes) :
    byteAt (encodeResponse v).bytesOut i = 0x00 := by
  rw [(encodeResponse_packed v).2 i hi, if_neg (by omega)]

end Response

/-- Settles O8: every field of the response, and the bytes on either side of LEN_OUT. -/
theorem encodeCompletesWithParallelForm : Obligations.EncodeCompletesWithParallelForm := by
  intro a v b s
  have hle := canonicalLength_le v
  refine ⟨(encodeResponse v).bytesOut, ?_, toNat_countOf _ (by omega),
    fun i => byteAt_encodeResponse_of_lt, fun i => byteAt_encodeResponse_of_le⟩
  rw [exec_eq, respondTo, encodeResponse_eq]
  rfl

/-! ### The last byte of the canonical encoding -/

theorem getLast?_canonicalBytes (v : Nat) :
    (canonicalBytes v).getLast? = some (canonicalByte v (canonicalLength v) (canonicalLength v - 1)) := by
  have hpos := canonicalLength_pos v
  rw [canonicalBytes, List.getLast?_map, List.getLast?_range, if_neg (by omega), Option.map_some]

/-- R72, R82: no canonical encoding of more than one byte ends in 0x00. -/
theorem canonicalLength_eq_one_of_last_zero (v : Nat)
    (h : canonicalByte v (canonicalLength v) (canonicalLength v - 1) = 0x00) : canonicalLength v = 1 := by
  have hminimal : isMinimal (canonicalBytes v) = true := by
    rw [isMinimal_iff_length (isEncoding_canonicalBytes v), encodingValue_canonicalBytes, length_canonicalBytes]
  rw [isMinimal_iff, length_canonicalBytes, getLast?_canonicalBytes, h] at hminimal
  simpa using hminimal

/-- R82: the canonical length is the least number of seven-bit groups, counted in bits. -/
theorem canonicalLength_le_iff_lt_two_pow (v k : Nat) (hk : 1 ≤ k) :
    canonicalLength v ≤ k ↔ v < 2 ^ (7 * k) := by
  rw [canonicalLength_le_iff v k hk, Nat.pow_mul]

/-- Settles O9: LEN_OUT is the canonical length, which is the least that holds the value. -/
theorem encodeLengthIsLeast : Obligations.EncodeLengthIsLeast := by
  intro a v b s t hexec
  rw [exec_eq, Host.Outcome.next.injEq] at hexec
  subst hexec
  have hpos := canonicalLength_pos v.toNat
  rw [State.complete_rsp, respondTo, lenOut_encodeResponse, encodedView_encodeResponse,
    byteAt_encodeResponse_of_lt (by omega)]
  exact ⟨hpos, canonicalLength_le v, (canonicalLength_le_iff_lt_two_pow _ _ hpos).mp (Nat.le_refl _),
    fun k hk => (canonicalLength_le_iff_lt_two_pow _ k hk).mpr, rfl, canonicalLength_eq_one_of_last_zero _⟩

/-! ### The continuation bits -/

/-- R81: the payload has seven bits, so bit 7 is the continuation bit that the parallel form adds. -/
theorem getLsbD_canonicalByte_seven (v len i : Nat) :
    (canonicalByte v len i).getLsbD 7 = decide (i < len - 1) := by
  have hpayload : (v >>> (7 * i) &&& 0x7f).testBit 7 = false :=
    Nat.testBit_lt_two_pow (Nat.lt_succ_of_le Nat.and_le_right)
  have hflag : Nat.testBit 0x80 7 = true := by decide
  rw [canonicalByte, BitVec.getLsbD_ofNat, Nat.testBit_or, hpayload]
  split
  · next h => simp [h, hflag]
  · next h => simp [h]

/-- Settles O10: the continuation bits of the parallel form, and the canonical encoding's own value. -/
theorem encodeOutputIsWellFormed : Obligations.EncodeOutputIsWellFormed := by
  intro a v b s t hexec
  rw [exec_eq, Host.Outcome.next.injEq] at hexec
  subst hexec
  have hpos := canonicalLength_pos v.toNat
  rw [State.complete_rsp, respondTo, lenOut_encodeResponse, encodedView_encodeResponse]
  refine ⟨fun i hi => ?_, ?_, fun i => byteAt_encodeResponse_of_le, isEncoding_canonicalBytes _,
    encodingValue_canonicalBytes _⟩
  · rw [byteAt_encodeResponse_of_lt (by omega), getLsbD_canonicalByte_seven, decide_eq_true hi]
  · rw [byteAt_encodeResponse_of_lt (by omega), getLsbD_canonicalByte_seven,
      decide_eq_false (Nat.lt_irrefl _)]

end Sys2Proof.Machine
end

section
/-! PROOFS. DECODE's response in full (R100 to R106): STATUS tells whether the scan stops, VALUE_OUT holds the payload bits group by group, and every well-formed encoding whose value fits in W bits comes back exactly. -/

namespace Sys2Proof.Machine

/-! ### Completion -/

/-- Settles O12: the scan stops at byte t, or every byte examined continues. -/
theorem decodeCompletesWithValue : Obligations.DecodeCompletesWithValue := by
  intro a v w s
  rw [exec_eq, respondTo]
  refine ⟨fun t ht hset hclear => ?_, fun hset => ?_⟩
  · have hlimit : t < 19 := Nat.lt_of_lt_of_le ht (scanLimit_le a)
    rw [decodeResponse_found a w t ht hset hclear]
    exact ⟨_, _, rfl, toNat_countOf _ (by omega), BitVec.toNat_ofNat _ _⟩
  · rw [decodeResponse_invalid a w hset]
    rfl

/-- R103: STATUS reports exactly that every byte examined has its continuation bit set. -/
theorem status_decodeResponse_eq_invalid_iff (a : Count) (w : Window) :
    (decodeResponse a w).status = statusInvalidSequence ↔
      ∀ i < scanLimit a, continues (byteAt w i) = true := by
  constructor
  · intro hstatus
    rcases scan_cases a w with ⟨t, ht, hset, hclear⟩ | hset
    · rw [decodeResponse_found a w t ht hset hclear] at hstatus
      exact absurd hstatus (by decide : statusOk ≠ statusInvalidSequence)
    · exact hset
  · intro hset
    rw [decodeResponse_invalid a w hset]
    rfl

/-- Settles O13: STATUS tells that no byte examined ends the encoding, and then the response is fixed. -/
theorem decodeInvalidExactlyWithoutTerminator : Obligations.DecodeInvalidExactlyWithoutTerminator := by
  intro a v w s t hexec
  rw [exec_eq, Host.Outcome.next.injEq] at hexec
  subst hexec
  have hiff := status_decodeResponse_eq_invalid_iff a w
  exact ⟨hiff, fun hstatus => decodeResponse_invalid a w (hiff.mp hstatus)⟩

/-! ### The value, bit by bit -/

/-- R42: the payload is the low seven bits of the byte. -/
theorem testBit_payload (b : Byte) (p : Nat) (hp : p < 7) : (payload b).testBit p = b.getLsbD p := by
  rw [payload_eq, show 128 = 2 ^ 7 from rfl, Nat.testBit_mod_two_pow, decide_eq_true hp, Bool.true_and,
    BitVec.testBit_toNat]

/-- R41: byte i carries value bits 7i+6 .. 7i, and there is nothing above the last byte. -/
theorem testBit_encodingValue (bs : List Byte) (p : Nat) :
    (encodingValue bs).testBit p = (bs.getD (p / 7) 0).getLsbD (p % 7) := by
  induction bs generalizing p with
  | nil => simp
  | cons b bs ih =>
    rw [encodingValue_cons, Nat.add_comm, show 128 = 2 ^ 7 from rfl,
      Nat.testBit_two_pow_mul_add _ (payload_lt b)]
    split
    · next hp => rw [testBit_payload b p hp, Nat.div_eq_of_lt hp, Nat.mod_eq_of_lt hp, List.getD_cons_zero]
    · next hp =>
      obtain ⟨q, rfl⟩ := Nat.exists_eq_add_of_le' (Nat.le_of_not_lt hp)
      rw [Nat.add_sub_cancel, ih, Nat.add_div_right _ (by omega), Nat.add_mod_right, List.getD_cons_succ]

/-- Settles O14: the accumulator holds the value modulo 2^W, so its bits are those of the value. -/
theorem decodeValueBits : Obligations.DecodeValueBits := by
  intro a v w s u t ht hset hclear hexec
  rw [exec_eq, Host.Outcome.next.injEq] at hexec
  subst hexec
  rw [State.complete_rsp, respondTo, decodeResponse_found a w t ht hset hclear, decodedResponse]
  refine ⟨rfl, BitVec.toNat_ofNat _ _, fun p hp => ?_⟩
  rw [BitVec.getLsbD_ofNat, decide_eq_true hp, Bool.true_and, testBit_encodingValue]
  split
  · next hle => rw [List.getD_eq_getElem _ _ (by simp; omega), List.getElem_map, List.getElem_range]
  · next hgt =>
    rw [List.getD_eq_default _ _ (by simp; omega)]
    exact BitVec.getLsbD_zero

/-! ### Well-formed encodings whose value fits -/

/-- R73: what is longer than its value needs does not overflow. -/
theorem encodingValue_lt_of_not_minimal {bs : List Byte} (h : isEncoding bs = true)
    (hminimal : isMinimal bs = false) (hmax : bs.length ≤ Config.maxBytes) : encodingValue bs < 2 ^ 128 := by
  by_contra hlarge
  have hover := (overflowsWidth_iff h hmax).mpr (Nat.le_of_not_lt hlarge)
  rw [isMinimal_of_overflowsWidth h hover] at hminimal
  exact Bool.noConfusion hminimal

/-- Settles O15: DECODE answers the value in W bits, and the value of a non-minimal encoding fits. -/
theorem decodeAcceptsNonMinimal : Obligations.DecodeAcceptsNonMinimal := by
  intro bs a v s h hminimal hmax ha
  have hlength : bs.length ≤ 19 := hmax
  have hw : ∀ i, ∀ hi : i < bs.length, byteAt (windowOfBytes bs) i = bs[i] := fun i hi => by
    rw [byteAt_windowOfBytes _ _ (by omega), List.getD_eq_getElem _ _ hi]
  rw [exec_eq, respondTo, decodeResponse_of_isEncoding h a _ (Nat.le_min_of_le_of_le ha hmax) hw]
  refine ⟨_, _, rfl, toNat_countOf _ (by omega), ?_⟩
  rw [BitVec.toNat_ofNat, Nat.mod_eq_of_lt (encodingValue_lt_of_not_minimal h hminimal hmax)]

/-- R106: the bytes of ENCODE are the canonical encoding, a well-formed encoding of the value itself. -/
theorem decodeResponse_of_encodeResponse (a : Count) (v : Value) (w : Window)
    (hw : ∀ i < (encodeResponse v).lenOut.toNat, byteAt w i = byteAt (encodeResponse v).bytesOut i)
    (ha : (encodeResponse v).lenOut.toNat ≤ a.toNat) :
    decodeResponse a w = ⟨statusOk, (encodeResponse v).lenOut, v, 0⟩ := by
  rw [lenOut_encodeResponse] at hw ha
  have hlimit : (canonicalBytes v.toNat).length ≤ scanLimit a := by
    rw [length_canonicalBytes]
    exact Nat.le_min_of_le_of_le ha (canonicalLength_le v)
  have hcanonical : ∀ i, ∀ hi : i < (canonicalBytes v.toNat).length,
      byteAt w i = (canonicalBytes v.toNat)[i] := fun i hi => by
    rw [length_canonicalBytes] at hi
    rw [hw i hi, byteAt_encodeResponse_of_lt hi]
    simp [canonicalBytes]
  rw [decodeResponse_of_isEncoding (isEncoding_canonicalBytes _) a w hlimit hcanonical, decodedResponse,
    encodingValue_canonicalBytes, length_canonicalBytes, BitVec.ofNat_toNat, BitVec.setWidth_eq,
    ← lenOut_encodeResponse, countOf_toNat]

/-- Settles O23: the response of DECODE to a window that begins with ENCODE's bytes. -/
theorem decodeOfEncodeReturnsValue : Obligations.DecodeOfEncodeReturnsValue := by
  intro a₀ a v x b₀ w s t u hexec hw ha
  rw [exec_eq, Host.Outcome.next.injEq] at hexec
  subst hexec
  have hresponse : respondTo (.decode a x w) = ⟨statusOk, (encodeResponse v).lenOut, v, 0⟩ :=
    decodeResponse_of_encodeResponse a v w hw ha
  rw [exec_eq, hresponse]
  rfl

end Sys2Proof.Machine
end

section
/-! PROOFS. PEEK's response in full (R120 to R125): the position at which the scan stops, the same for DECODE, the same for every AVAIL_IN above it, and on ENCODE's bytes the length that ENCODE wrote. -/

namespace Sys2Proof.Machine

/-! ### Completion -/

/-- R120: no position that a scan can report is too large for LEN_OUT. -/
theorem toNat_countOf_of_lt_scanLimit {a : Count} {t : Nat} (ht : t < scanLimit a) :
    (countOf (t + 1)).toNat = t + 1 :=
  toNat_countOf _ (by have hle := scanLimit_le a; omega)

/-- Settles O16: the scan stops at byte t, or every byte examined continues. -/
theorem peekCompletesWithLength : Obligations.PeekCompletesWithLength := by
  intro a v w s
  rw [exec_eq, respondTo]
  refine ⟨fun t ht hset hclear => ?_, fun hset => ?_⟩
  · rw [peekResponse_found a w t ht hset hclear]
    exact ⟨_, toNat_countOf_of_lt_scanLimit ht, rfl⟩
  · rw [peekResponse_absent a w hset]
    rfl

/-! ### PEEK beside DECODE, and beside itself with another AVAIL_IN -/

/-- R123: both scans stop at the same byte, or neither stops. -/
theorem peekResponse_agrees_decodeResponse (a : Count) (w : Window) :
    (peekResponse a w).status = (decodeResponse a w).status ∧
      (peekResponse a w).lenOut = (decodeResponse a w).lenOut := by
  rcases scan_cases a w with ⟨t, ht, hset, hclear⟩ | hset
  · rw [peekResponse_found a w t ht hset hclear, decodeResponse_found a w t ht hset hclear]
    exact ⟨rfl, rfl⟩
  · rw [peekResponse_absent a w hset, decodeResponse_invalid a w hset]
    exact ⟨rfl, rfl⟩

/-- Settles O17: the two responses are read off states that exec completed. -/
theorem peekAgreesWithDecode : Obligations.PeekAgreesWithDecode := by
  intro a v v' w s s' t t' hpeek hdecode
  rw [exec_eq, Host.Outcome.next.injEq] at hpeek hdecode
  subst hpeek hdecode
  exact peekResponse_agrees_decodeResponse a w

/-- R125: PEEK is absent where at most n bytes are examined and the first n bytes all continue. -/
theorem peekResponse_absent_of_le {a : Count} {w : Window} {n : Nat} (hn : scanLimit a ≤ n)
    (hset : ∀ i < n, continues (byteAt w i) = true) : peekResponse a w = raiseInvalidSequence :=
  peekResponse_absent a w fun i hi => hset i (Nat.lt_of_lt_of_le hi hn)

/-- Settles O18: AVAIL_IN bounds the scan either below the terminating byte or above it. -/
theorem peekIsMonotoneInAvailable : Obligations.PeekIsMonotoneInAvailable := by
  intro w a v s u hexec
  rw [exec_eq, Host.Outcome.next.injEq] at hexec
  subst hexec
  rw [State.complete_rsp, respondTo]
  refine ⟨fun t hmax hset hclear => ⟨fun ha => ?_, fun ha => ?_⟩, fun hset => ?_⟩
  · rw [peekResponse_absent_of_le (Nat.le_trans (Nat.min_le_left _ _) ha) hset]
    rfl
  · have ht : t < scanLimit a := Nat.lt_min.mpr ⟨ha, hmax⟩
    rw [peekResponse_found a w t ht hset hclear]
    exact ⟨rfl, toNat_countOf_of_lt_scanLimit ht⟩
  · rw [peekResponse_absent_of_le (Nat.min_le_right _ _) hset]
    rfl

/-! ### PEEK of ENCODE's bytes -/

section OfEncode

variable {a : Count} {v : Value} {w : Window}

/-- R84: of ENCODE's bytes only the last has its continuation bit clear. -/
theorem continues_encodeResponse {i : Nat} (h : i < canonicalLength v.toNat) :
    continues (byteAt (encodeResponse v).bytesOut i) = decide (i < canonicalLength v.toNat - 1) := by
  rw [byteAt_encodeResponse_of_lt h]
  exact getLsbD_canonicalByte_seven _ _ _

/-- R124: with all of ENCODE's bytes available, the scan stops at the last of them. -/
theorem peekResponse_of_encodeResponse
    (hw : ∀ i < canonicalLength v.toNat, byteAt w i = byteAt (encodeResponse v).bytesOut i)
    (ha : canonicalLength v.toNat ≤ a.toNat) :
    peekResponse a w = lengthResponse (canonicalLength v.toNat) := by
  have hpos := canonicalLength_pos v.toNat
  have hlimit : canonicalLength v.toNat ≤ scanLimit a := Nat.le_min_of_le_of_le ha (canonicalLength_le v)
  have hbit : ∀ i < canonicalLength v.toNat,
      continues (byteAt w i) = decide (i < canonicalLength v.toNat - 1) := fun i hi => by
    rw [hw i hi, continues_encodeResponse hi]
  rw [peekResponse_found a w (canonicalLength v.toNat - 1) (by omega)
    (fun i hi => by rw [hbit i (by omega), decide_eq_true hi])
    (by rw [hbit _ (by omega), decide_eq_false (Nat.lt_irrefl _)]), Nat.sub_add_cancel hpos]

/-- R124: with the last of ENCODE's bytes cut off, every byte available has its continuation bit set. -/
theorem peekResponse_of_truncated_encodeResponse
    (hw : ∀ i < a.toNat, byteAt w i = byteAt (encodeResponse v).bytesOut i)
    (ha : a.toNat < canonicalLength v.toNat) : peekResponse a w = raiseInvalidSequence :=
  peekResponse_absent_of_le (Nat.min_le_left _ _) fun i hi => by
    rw [hw i hi, continues_encodeResponse (by omega), decide_eq_true (by omega)]

end OfEncode

/-- Settles O24: AVAIL_IN admits all of ENCODE's bytes or cuts off the last of them. -/
theorem peekOfEncodeReturnsLength : Obligations.PeekOfEncodeReturnsLength := by
  intro a₀ a v x b₀ w s t u hexec hw
  rw [exec_eq, Host.Outcome.next.injEq] at hexec
  subst hexec
  simp only [exec_eq, respondTo, State.complete_rsp, lenOut_encodeResponse] at hw ⊢
  refine ⟨fun ha => ?_, fun ha => ?_⟩
  · rw [Nat.min_eq_right ha] at hw
    rw [peekResponse_of_encodeResponse hw ha, ← lenOut_encodeResponse, lengthResponse, countOf_toNat]
    rfl
  · rw [Nat.min_eq_left (Nat.le_of_lt ha)] at hw
    rw [peekResponse_of_truncated_encodeResponse hw ha]
    rfl

end Sys2Proof.Machine
end

section
/-! PROOFS. The stream reader (R141 to R143): one rule for each kind of byte it reads, and the five ways in which a source can go on after its first continuation bytes. -/

namespace Sys2Proof.Machine

/-! ### The scratch buffer -/

/-- R141, R123: PEEK over a buffer that holds a well-formed encoding finds it, as DECODE does. -/
theorem status_peekBuffer_of_isEncoding {buf : List Byte} (h : isEncoding buf = true)
    (hmax : buf.length ≤ Config.maxBytes) : (peekBuffer buf).status = statusOk := by
  have hagree : (peekBuffer buf).status = (decodeBuffer buf).status :=
    (peekResponse_agrees_decodeResponse (countOf buf.length) (windowOfBytes buf)).1
  rw [hagree, decodeBuffer_of_isEncoding h hmax]
  rfl

/-- R141, R122: PEEK is absent on a buffer of continuation bytes. -/
theorem status_peekBuffer_of_continues {buf : List Byte} (h : ∀ b ∈ buf, continues b = true)
    (hmax : buf.length ≤ Config.maxBytes) : (peekBuffer buf).status ≠ statusOk := by
  rw [maxBytes_eq] at hmax
  have hcount : (countOf buf.length).toNat = buf.length := toNat_countOf _ (by omega)
  have habsent : peekBuffer buf = raiseInvalidSequence := by
    refine peekResponse_absent_of_le (Nat.min_le_left _ _) fun i hi => ?_
    rw [hcount] at hi
    rw [byteAt_windowOfBytes _ _ (by omega), List.getD_eq_getElem _ _ hi]
    exact h _ (List.getElem_mem hi)
  rw [habsent]
  decide

/-- R141: the defensive DECODE answers the value of the encoding that PEEK found. -/
theorem finishRead_of_isEncoding {buf : List Byte} (h : isEncoding buf = true)
    (hmax : buf.length ≤ Config.maxBytes) :
    finishRead buf = .ok (BitVec.ofNat 128 (encodingValue buf)) := by
  rw [finishRead, decodeBuffer_of_isEncoding h hmax]
  rfl

/-! ### One byte read -/

section OneByte

variable {left : Nat} {buf : List Byte} {b : Byte} {rest : List ReadEvent}

/-- A byte that ends the encoding ends the loop, with the encoding's value in W bits. -/
theorem readLoop_byte_of_isEncoding (h : isEncoding (buf ++ [b]) = true)
    (hmax : (buf ++ [b]).length ≤ Config.maxBytes) :
    readLoop (left + 1) buf (.byte b :: rest) =
      (.ok (BitVec.ofNat 128 (encodingValue (buf ++ [b]))), rest) := by
  rw [readLoop, if_pos (status_peekBuffer_of_isEncoding h hmax), finishRead_of_isEncoding h hmax]

/-- A continuation byte after continuation bytes keeps the loop going. -/
theorem readLoop_byte_of_continues (h : ∀ c ∈ buf ++ [b], continues c = true)
    (hmax : (buf ++ [b]).length ≤ Config.maxBytes) :
    readLoop (left + 1) buf (.byte b :: rest) = readLoop left (buf ++ [b]) rest := by
  rw [readLoop, if_neg (status_peekBuffer_of_continues h hmax)]

end OneByte

/-! ### A run of continuation bytes -/

section Run

variable {bs : List Byte} (hset : ∀ b ∈ bs, continues b = true)
include hset

theorem readLoop_continuation {left : Nat} {buf : List Byte} (hbuf : ∀ b ∈ buf, continues b = true)
    (hmax : (buf ++ bs).length ≤ Config.maxBytes) (source : List ReadEvent) :
    readLoop (left + bs.length) buf (bs.map .byte ++ source) = readLoop left (buf ++ bs) source := by
  induction bs generalizing buf with
  | nil => simp
  | cons b bs ih =>
    rw [List.forall_mem_cons] at hset
    obtain ⟨hb, hset⟩ := hset
    have hbuf' : ∀ c ∈ buf ++ [b], continues c = true := by
      simpa [or_imp, forall_and, hb] using hbuf
    rw [List.append_cons] at hmax ⊢
    rw [← ih hset hbuf' hmax]
    exact readLoop_byte_of_continues hbuf' (Nat.le_trans (by simp) hmax)

/-- R141: after a run of continuation bytes the reader waits for the next one, with the run in its buffer. -/
theorem readFromStream_continuation (hmax : bs.length ≤ Config.maxBytes) (source : List ReadEvent) :
    readFromStream (bs.map .byte ++ source) = readLoop (Config.maxBytes - bs.length) bs source := by
  have hrun := readLoop_continuation hset (left := Config.maxBytes - bs.length) (buf := []) (by simp) hmax source
  rwa [Nat.sub_add_cancel hmax] at hrun

/-- R143: after MAX_BYTES continuation bytes there is no further read. -/
theorem readFromStream_overlong (hlength : bs.length = Config.maxBytes) (after : List ReadEvent) :
    readFromStream (bs.map .byte ++ after) = (.error .invalidSequence, after) := by
  rw [readFromStream_continuation hset (Nat.le_of_eq hlength), hlength, Nat.sub_self, readLoop]

section Short

variable (hshort : bs.length < Config.maxBytes)
include hshort

/-- R141: after a shorter run of continuation bytes at least one more read is allowed. -/
theorem readFromStream_short (source : List ReadEvent) :
    readFromStream (bs.map .byte ++ source) = readLoop (Config.maxBytes - bs.length - 1 + 1) bs source := by
  rw [readFromStream_continuation hset (Nat.le_of_lt hshort), Nat.sub_add_cancel (Nat.sub_pos_of_lt hshort)]

theorem readFromStream_ended : readFromStream (bs.map .byte) = (.error (.io .unexpectedEnd), []) := by
  rw [← List.append_nil (bs.map _), readFromStream_short hset hshort, readLoop]

theorem readFromStream_fails (e : IoError) (after : List ReadEvent) :
    readFromStream (bs.map .byte ++ .fails e :: after) = (.error (.io e), after) := by
  rw [readFromStream_short hset hshort, readLoop]

theorem readFromStream_blocks (after : List ReadEvent) :
    readFromStream (bs.map .byte ++ .blocks :: after) = (.stuck, .blocks :: after) := by
  rw [readFromStream_short hset hshort, readLoop]

end Short

end Run

/-- R141: a well-formed encoding at the start of the source is read, and nothing after it. -/
theorem readFromStream_of_isEncoding {bs : List Byte} (h : isEncoding bs = true)
    (hmax : bs.length ≤ Config.maxBytes) (after : List ReadEvent) :
    readFromStream (bs.map .byte ++ after) = (.ok (BitVec.ofNat 128 (encodingValue bs)), after) := by
  obtain ⟨init, last, rfl, hset, -⟩ := (isEncoding_iff bs).mp h
  have hshort : init.length < Config.maxBytes := by
    simpa [Nat.succ_le_iff] using hmax
  rw [List.map_append, List.append_assoc, readFromStream_short hset hshort]
  exact readLoop_byte_of_isEncoding h hmax

/-- Settles O41: the run of continuation bytes uses up all the reads. -/
theorem overlongStreamIsInvalid : Obligations.OverlongStreamIsInvalid :=
  fun _ after hlength hset => readFromStream_overlong hset hlength after

/-- Settles O40: after the run of continuation bytes the reader passes on what the source does. -/
theorem truncatedStreamIsIoError : Obligations.TruncatedStreamIsIoError :=
  fun _ hshort hset =>
    ⟨readFromStream_ended hset hshort, readFromStream_fails hset hshort, readFromStream_blocks hset hshort⟩

/-! ### Every source -/

/-- A source starts with a run of continuation bytes, which n reads do not exceed and which, if shorter, no continuation byte prolongs. -/
theorem exists_continuation_run (n : Nat) (source : List ReadEvent) :
    ∃ (bs : List Byte) (rest : List ReadEvent), source = bs.map .byte ++ rest ∧
      (∀ b ∈ bs, continues b = true) ∧ bs.length ≤ n ∧
      (bs.length < n → ∀ b after, rest = .byte b :: after → continues b = false) := by
  induction n generalizing source with
  | zero => exact ⟨[], source, by simp⟩
  | succ n ih =>
    by_cases hnext : ∃ b after, source = .byte b :: after ∧ continues b = true
    case pos =>
      obtain ⟨b, after, rfl, hb⟩ := hnext
      obtain ⟨bs, rest, rfl, hset, hle, hstop⟩ := ih after
      exact ⟨b :: bs, rest, rfl, List.forall_mem_cons.mpr ⟨hb, hset⟩, Nat.succ_le_succ hle,
        fun hlt => hstop (Nat.lt_of_succ_lt_succ hlt)⟩
    case neg =>
      refine ⟨[], source, rfl, by simp, Nat.zero_le _, fun _ b after heq => ?_⟩
      exact Bool.eq_false_iff.mpr fun hb => hnext ⟨b, after, heq, hb⟩

/-- Settles O42: the source goes on in one of five ways after its run of continuation bytes, and one of them gives a value, one INVALID_SEQUENCE. -/
theorem readerConsumesOneEncoding : Obligations.ReaderConsumesOneEncoding := by
  intro source
  obtain ⟨bs, rest, rfl, hset, hle, hstop⟩ := exists_continuation_run Config.maxBytes source
  rcases Nat.eq_or_lt_of_le hle with hlength | hshort
  · rw [readFromStream_overlong hset hlength]
    exact ⟨bs.map .byte, rfl, by simpa using hle, by simp, fun _ => ⟨bs, rfl, hlength, hset⟩⟩
  · cases rest with
    | nil =>
      rw [List.append_nil, readFromStream_ended hset hshort]
      exact ⟨bs.map .byte, by simp, by simpa using hle, by simp, by simp⟩
    | cons event after =>
      cases event with
      | byte b =>
        have hencoding : isEncoding (bs ++ [b]) = true :=
          (isEncoding_iff _).mpr ⟨bs, b, rfl, hset, hstop hshort b after rfl⟩
        have hsource : bs.map ReadEvent.byte ++ .byte b :: after = (bs ++ [b]).map .byte ++ after := by simp
        have hmax : (bs ++ [b]).length ≤ Config.maxBytes := by simpa [Nat.succ_le_iff] using hshort
        rw [hsource, readFromStream_of_isEncoding hencoding hmax]
        refine ⟨(bs ++ [b]).map .byte, rfl, by simpa using hmax, fun v hv => ?_, by simp⟩
        obtain rfl := HostResult.ok.inj hv
        exact ⟨bs ++ [b], rfl, hencoding, BitVec.toNat_ofNat _ _⟩
      | fails e =>
        rw [readFromStream_fails hset hshort]
        exact ⟨bs.map .byte ++ [.fails e], by simp, by simpa [Nat.succ_le_iff] using hshort, by simp, by simp⟩
      | blocks =>
        rw [readFromStream_blocks hset hshort]
        exact ⟨bs.map .byte, rfl, by simpa using hle, by simp, by simp⟩

end Sys2Proof.Machine
end

section
/-! PROOFS. The stream writer (R144, R148) and the conversions of a caller's value (R145, R146): ENCODE's bytes are the canonical encoding, which DECODE and the stream reader turn back into the value. -/

namespace Sys2Proof.Machine

section Writer

variable (v : Value)

/-! ### The canonical encoding of a W-bit value -/

theorem length_canonicalBytes_le : (canonicalBytes v.toNat).length ≤ Config.maxBytes :=
  (length_canonicalBytes _).trans_le (canonicalLength_le v)

theorem ofNat_encodingValue_canonicalBytes : BitVec.ofNat 128 (encodingValue (canonicalBytes v.toNat)) = v := by
  rw [encodingValue_canonicalBytes, BitVec.ofNat_toNat, BitVec.setWidth_eq]

/-- R106 over a scratch buffer: DECODE of the canonical encoding answers the value. -/
theorem valueOut_decodeBuffer_canonicalBytes : (decodeBuffer (canonicalBytes v.toNat)).valueOut = v := by
  rw [decodeBuffer_of_isEncoding (isEncoding_canonicalBytes _) (length_canonicalBytes_le v)]
  exact ofNat_encodingValue_canonicalBytes v

/-! ### write_to_stream -/

theorem writeToStream_takes (count : Nat) :
    writeToStream v (.takes count) =
      (.ok (min count (canonicalLength v.toNat)), (canonicalBytes v.toNat).take count) := by
  rw [writeToStream, respondTo, encodedView_encodeResponse, length_canonicalBytes]

theorem writeToStream_fails (e : IoError) (reached : Nat) :
    writeToStream v (.fails e reached) = (.error (.io e), (canonicalBytes v.toNat).take reached) := by
  rw [writeToStream, respondTo, encodedView_encodeResponse]

theorem writeToStream_blocks (reached : Nat) :
    writeToStream v (.blocks reached) = (.stuck, (canonicalBytes v.toNat).take reached) := by
  rw [writeToStream, respondTo, encodedView_encodeResponse]

end Writer

/-- Settles O43: the count is the sink's or, where that is larger, LEN_OUT; either way it counts the bytes taken. -/
theorem writeReportsAcceptedCount : Obligations.WriteReportsAcceptedCount := by
  intro v
  refine ⟨fun count => ⟨min count (canonicalLength v.toNat), ?_⟩, writeToStream_fails v, writeToStream_blocks v⟩
  rw [writeToStream_takes, respondTo, lenOut_encodeResponse]
  refine ⟨?_, Nat.min_le_right _ _, by omega⟩
  rw [← length_canonicalBytes, ← List.take_eq_take_min]

/-- Settles O39: a sink that takes every byte holds the canonical encoding, and the reader takes exactly that from the channel. -/
theorem streamRoundTrip : Obligations.StreamRoundTrip := by
  intro v count after hcount
  rw [respondTo, lenOut_encodeResponse] at hcount ⊢
  have hall : (canonicalBytes v.toNat).take count = canonicalBytes v.toNat :=
    List.take_of_length_le ((length_canonicalBytes _).trans_le hcount)
  rw [writeToStream_takes, hall, Nat.min_eq_right hcount,
    readFromStream_of_isEncoding (isEncoding_canonicalBytes _) (length_canonicalBytes_le v),
    ofNat_encodingValue_canonicalBytes]
  exact ⟨rfl, length_canonicalBytes _, rfl⟩

/-! ### A caller's own width -/

section Caller

variable {k : Nat} (x : BitVec k) (hk : k ≤ 128)
include hk

/-- R145: widening adds only zeros above the caller's bits. -/
theorem truncate_widenCaller : (widenCaller k x).truncate k = x :=
  (BitVec.setWidth_setWidth_of_le x hk).trans x.setWidth_eq

/-- R146: both readings of a signed value keep the caller's bits. -/
theorem truncate_castSignedBy (cast : Config.SignedCast) : (castSignedBy cast k x).truncate k = x := by
  cases cast with
  | zeroExtend => exact truncate_widenCaller x hk
  | signExtend =>
    apply BitVec.eq_of_getLsbD_eq
    intro i hi
    rw [castSignedBy, BitVec.truncate_eq_setWidth, BitVec.getLsbD_setWidth, BitVec.getLsbD_signExtend, if_pos hi,
      decide_eq_true hi, decide_eq_true (Nat.lt_of_lt_of_le hi hk), Bool.true_and, Bool.true_and]

end Caller

/-- R146: the two readings agree on a value whose sign bit is clear. -/
theorem castSignedBy_of_msb_false (cast : Config.SignedCast) {k : Nat} (x : BitVec k) (h : x.msb = false) :
    castSignedBy cast k x = widenCaller k x := by
  cases cast with
  | zeroExtend => rfl
  | signExtend => exact BitVec.signExtend_eq_setWidth_of_msb_false h

/-- R146: there are the two readings and no third. -/
theorem castSignedBy_cases (cast : Config.SignedCast) {k : Nat} (x : BitVec k) :
    castSignedBy cast k x = x.zeroExtend 128 ∨ castSignedBy cast k x = x.signExtend 128 := by
  cases cast with
  | zeroExtend => exact .inl rfl
  | signExtend => exact .inr rfl

/-- Settles O44: ENCODE and DECODE return the widened value, and narrowing undoes the widening. -/
theorem callerWidthRoundTrip : Obligations.CallerWidthRoundTrip := by
  intro k x hk
  refine ⟨BitVec.toNat_setWidth_of_le hk, ?_⟩
  rw [respondTo, encodedView_encodeResponse, narrowResult, valueOut_decodeBuffer_canonicalBytes]
  exact truncate_widenCaller x hk

/-- Settles O45: each clause holds for both readings of SIGNED_CAST, hence for the open one (R146; log entry 3). -/
theorem signedCastKeepsPattern : Obligations.SignedCastKeepsPattern :=
  fun _ x hk => ⟨truncate_castSignedBy x hk _, castSignedBy_of_msb_false _ x, castSignedBy_cases _ x⟩

end Sys2Proof.Machine
end

section
/-! PROOFS. Faults (R29, R68, R169, R188): a step faults exactly where the host's read does, and no operation writes STATUS = 0b11. -/

namespace Sys2Proof.Machine

variable {s : State}

/-! ### When a read faults -/

/-- R23: rsp_valid = 0 outside DONE and at a reset edge. -/
theorem State.rspValid_eq_false_iff : s.rspValid = false ↔ s.phase ≠ .done ∨ s.edge.rst = true := by
  simp [State.rspValid, or_iff_not_imp_left]

/-- R29, R68, R188: the two faults of a read, told apart by rsp_valid (log entry 9). -/
theorem State.readFault_eq_some_iff (f : Fault) :
    s.readFault = some f ↔ s.edge.hostReads = true ∧
      (s.rspValid = false ∧ f = .responseReadOutsideDone ∨
        s.rspValid = true ∧ s.rsp.status = statusNever ∧ f = .statusNeverProduced) := by
  cases hread : s.edge.hostReads with
  | false => simp [readFault_of_not_reads s hread]
  | true =>
    cases hv : s.rspValid with
    | false => simp [State.readFault, State.rspOutputs, hread, hv, eq_comm]
    | true => simp [State.readFault, State.rspOutputs, hread, hv, eq_comm]

/-- Some read fault: the host reads where nothing is valid, or reads STATUS = 0b11. -/
theorem State.exists_readFault_iff :
    (∃ f, s.readFault = some f) ↔ s.edge.hostReads = true ∧ (s.rspValid = false ∨ s.rsp.status = statusNever) := by
  simp only [State.readFault_eq_some_iff]
  cases s.rspValid <;> simp

/-! ### When a step faults -/

/-- R169: an edge without a read fault steps, by one row of the phase transition table. -/
theorem exists_step_next (hf : s.readFault = none) : ∃ t, step s = .next t := by
  have hself : s.SameObservable s := ⟨rfl, rfl, rfl, rfl, rfl, fun _ => rfl, fun _ => rfl, fun _ => rfl⟩
  obtain ⟨t, -, hstep, -⟩ := hself.step_next hf
  exact ⟨t, hstep⟩

/-- R169: the block adds no fault of its own to that of the host's read. -/
theorem step_eq_fault_iff (f : Fault) : step s = .fault f ↔ s.readFault = some f := by
  cases hf : s.readFault with
  | some g => simp [step_fault s g hf]
  | none =>
    obtain ⟨t, hstep⟩ := exists_step_next hf
    simp [hstep]

/-! ### The STATUS of a good state's response -/

/-- R25, R68: each operation writes one of the three legal codes. -/
theorem legalStatus_respondTo (i : Instr) : legalStatus (respondTo i).status := by
  cases i with
  | encode a v w => exact .inl (status_encodeResponse v)
  | decode a v w =>
    rcases decodeResponse_fields a w with ⟨hok, -⟩ | hinvalid
    · exact .inl hok
    · exact .inr (.inl (congrArg Response.status hinvalid))
  | peek a v w =>
    rcases peekResponse_fields a w with ⟨hok, -⟩ | hinvalid
    · exact .inl hok
    · exact .inr (.inl (congrArg Response.status hinvalid))
  | rsvd a v w => exact .inr (.inr rfl)

theorem not_legalStatus_statusNever : ¬ legalStatus statusNever := by
  unfold legalStatus
  decide

/-- R68: a good state presents no STATUS = 0b11, since it presents Op of its request. -/
theorem State.Good.status_ne_statusNever (h : s.Good) (hv : s.rspValid = true) : s.rsp.status ≠ statusNever := by
  intro hnever
  have hlegal : legalStatus (respond s.req).status := legalStatus_respondTo _
  rw [← h.presented (State.phase_of_rspValid hv), hnever] at hlegal
  exact not_legalStatus_statusNever hlegal

/-- Settles O28: a step faults exactly where the host's read does (log entry 9), and a good state presents a legal STATUS. -/
theorem onlyTheHostsReadFaults : Obligations.OnlyTheHostsReadFaults := by
  intro s
  refine ⟨step_not_refused s, ?faults, ?good⟩
  case faults =>
    simp only [step_eq_fault_iff, State.exists_readFault_iff, State.rspValid_eq_false_iff, or_assoc, statusNever]
  case good =>
    intro h f hstep
    obtain ⟨-, hfault⟩ := (State.readFault_eq_some_iff f).mp ((step_eq_fault_iff f).mp hstep)
    rcases hfault with ⟨-, houtside⟩ | ⟨hv, hnever, -⟩
    · exact houtside
    · exact absurd hnever (h.status_ne_statusNever hv)

end Sys2Proof.Machine
end

section
/-! PROOFS. Reset and hazards (R180 to R190): one edge of each phase, what holds along a run of edges, and the spacing of acceptances. -/

namespace Sys2Proof.Machine

variable {s t u : State}

/-! ### The handshake outputs -/

theorem State.reqReady_eq_true_iff : s.reqReady = true ↔ s.phase = .idle ∧ s.edge.rst = false := by
  simp [State.reqReady]

theorem State.rspValid_eq_true_iff : s.rspValid = true ↔ s.phase = .done ∧ s.edge.rst = false := by
  simp [State.rspValid]

/-- R23: req_ready = 0 outside IDLE and at a reset edge. -/
theorem State.reqReady_eq_false_iff : s.reqReady = false ↔ s.phase ≠ .idle ∨ s.edge.rst = true := by
  simp [State.reqReady, or_iff_not_imp_left]

/-- R29: the outputs carry RSP while it is valid. -/
theorem State.rspOutputs_of_rspValid (hv : s.rspValid = true) : s.rspOutputs = some s.rsp :=
  if_pos hv

/-- R48, R188: a valid response with a legal STATUS may be read. -/
theorem State.readFault_of_rspValid (hv : s.rspValid = true) (hs : s.rsp.status ≠ statusNever) :
    s.readFault = none := by
  rw [Option.eq_none_iff_forall_ne_some]
  intro f hf
  obtain ⟨-, ⟨hinvalid, -⟩ | ⟨-, hnever, -⟩⟩ := (State.readFault_eq_some_iff f).mp hf
  · exact Bool.false_ne_true (hinvalid.symm.trans hv)
  · exact hs hnever

/-! ### The edges in IDLE and DONE -/

theorem State.idleEdge_of_reqValid (hv : s.edge.reqValid = true) : s.idleEdge = s.advance.accept s.edge.request :=
  if_pos hv

theorem State.idleEdge_of_not_reqValid (hv : s.edge.reqValid = false) : s.idleEdge = s.advance := by
  simp [State.idleEdge, hv]

theorem State.doneEdge_of_rspReady (hv : s.edge.rspReady = true) : s.doneEdge = s.advance.deliver :=
  if_pos hv

theorem State.doneEdge_of_not_rspReady (hv : s.edge.rspReady = false) : s.doneEdge = s.advance := by
  simp [State.doneEdge, hv]

/-- R183: the accepting edge. -/
theorem step_accept (hf : s.readFault = none) (hr : s.edge.rst = false) (hp : s.phase = .idle)
    (hv : s.edge.reqValid = true) : step s = .next (s.advance.accept s.edge.request) := by
  rw [step_idle s hf hr hp, State.idleEdge_of_reqValid hv]

/-- Settles O29: whatever the phase, the reset row is the one taken, and it keeps both records. -/
theorem resetEdgeDropsTransaction : Obligations.ResetEdgeDropsTransaction := by
  intro s hrst hread
  exact ⟨State.reqReady_eq_false_iff.mpr (.inr hrst), State.rspValid_eq_false_iff.mpr (.inr hrst),
    s.advance.resetEdge, step_reset s (readFault_of_not_reads s hread) hrst, rfl, rfl, rfl, rfl⟩

/-- Settles O30: the IDLE row accepts, or lets the edge pass. -/
theorem idleEdgeAccepts : Obligations.IdleEdgeAccepts := by
  intro s hidle hrst hread
  have hf := readFault_of_not_reads s hread
  refine ⟨fun hvalid => ⟨_, step_accept hf hrst hidle hvalid, rfl, rfl, rfl, rfl, rfl, rfl⟩, fun hvalid => ?_⟩
  rw [step_idle s hf hrst hidle, State.idleEdge_of_not_reqValid hvalid]
  rfl

/-! ### What an edge does to the inputs, the record of acceptances, REQ and RSP -/

/-- Each edge passes once. -/
theorem inputs_of_step (h : step s = .next t) : t.inputs = s.inputs.tail := by
  obtain ⟨-, hrow⟩ := step_cases s t h
  rcases hrow with ⟨-, rfl⟩ | ⟨-, -, -, rfl⟩ | ⟨-, -, -, rfl⟩ | ⟨-, -, -, rfl⟩ | ⟨-, -, left, -, rfl⟩ |
    ⟨-, -, -, rfl⟩ | ⟨-, -, -, rfl⟩ <;> rfl

/-- R183, R184: a request is recorded exactly where req_ready and req_valid are both 1. -/
theorem accepted_of_step (h : step s = .next t) :
    t.accepted = if s.reqReady = true ∧ s.edge.reqValid = true then s.accepted ++ [s.edge.request] else s.accepted := by
  obtain ⟨-, hrow⟩ := step_cases s t h
  rcases hrow with ⟨hrst, rfl⟩ | ⟨hrst, hidle, hvalid, rfl⟩ | ⟨-, -, hvalid, rfl⟩ | ⟨-, hbusy, -, rfl⟩ |
    ⟨-, hbusy, left, -, rfl⟩ | ⟨-, hdone, -, rfl⟩ | ⟨-, hdone, -, rfl⟩
  · simp [State.reqReady_eq_true_iff, hrst]
  · simp [State.reqReady_eq_true_iff, hrst, hidle, hvalid]
  · simp [hvalid]
  · simp [State.reqReady_eq_true_iff, hbusy]
  · simp [State.reqReady_eq_true_iff, hbusy]
  · simp [State.reqReady_eq_true_iff, hdone]
  · simp [State.reqReady_eq_true_iff, hdone]

/-- R184: outside IDLE no edge accepts. -/
theorem accepted_of_step_of_ne_idle (h : step s = .next t) (hp : s.phase ≠ .idle) : t.accepted = s.accepted := by
  rw [accepted_of_step h, if_neg]
  rintro ⟨hready, -⟩
  exact hp (State.reqReady_eq_true_iff.mp hready).1

/-- R184: REQ is written only by acceptance and by reset. -/
theorem req_of_step_of_ne_idle (h : step s = .next t) (hp : s.phase ≠ .idle) (hr : s.edge.rst = false) :
    t.req = s.req := by
  obtain ⟨-, hrow⟩ := step_cases s t h
  rcases hrow with ⟨hrst, -⟩ | ⟨-, hidle, -⟩ | ⟨-, hidle, -⟩ | ⟨-, -, -, rfl⟩ | ⟨-, -, left, -, rfl⟩ |
    ⟨-, -, -, rfl⟩ | ⟨-, -, -, rfl⟩
  · simp [hr] at hrst
  · exact absurd hidle hp
  · exact absurd hidle hp
  all_goals rfl

/-- R187: RSP is written only by completion and by reset. -/
theorem reset_or_completes_of_rsp_ne (h : step s = .next t) (hrsp : t.rsp ≠ s.rsp) :
    s.edge.rst = true ∨ s.phase = .busy ∧ s.wait = 0 := by
  obtain ⟨-, hrow⟩ := step_cases s t h
  rcases hrow with ⟨hrst, -⟩ | ⟨-, -, -, rfl⟩ | ⟨-, -, -, rfl⟩ | ⟨-, hbusy, hwait, -⟩ | ⟨-, -, left, -, rfl⟩ |
    ⟨-, -, -, rfl⟩ | ⟨-, -, -, rfl⟩
  · exact .inl hrst
  · exact absurd rfl hrsp
  · exact absurd rfl hrsp
  · exact .inr ⟨hbusy, hwait⟩
  all_goals exact absurd rfl hrsp

/-- Settles O31: an edge accepts where both handshake signals are 1; outside IDLE, req_ready is 0 and only a reset edge writes REQ. -/
theorem oneTransactionAtATime : Obligations.OneTransactionAtATime :=
  fun _ _ h =>
    ⟨accepted_of_step h, fun hp => State.reqReady_eq_false_iff.mpr (.inl hp), req_of_step_of_ne_idle h⟩

/-! ### The request port outside an accepting edge -/

section RequestPort

variable (hadvance : s.advance = t.advance) (hrst : s.edge.rst = t.edge.rst)
  (hreads : s.edge.hostReads = t.edge.hostReads)
include hadvance hrst

theorem State.rspOutputs_eq_of_advance_eq : s.rspOutputs = t.rspOutputs := by
  have hphase : s.phase = t.phase := by simpa using congrArg State.phase hadvance
  have hrsp : s.rsp = t.rsp := by simpa using congrArg State.rsp hadvance
  have hvalid : s.rspValid = t.rspValid := by simp only [State.rspValid, hphase, hrst]
  rw [State.rspOutputs, State.rspOutputs, hvalid, hrsp]

include hreads

theorem State.readFault_eq_of_advance_eq : s.readFault = t.readFault := by
  simp only [State.readFault, hreads, State.rspOutputs_eq_of_advance_eq hadvance hrst]

/-- R187: two states that agree on everything but the request port take the same row to the same state, unless one of them accepts. -/
theorem step_eq_of_advance_eq (hready : s.edge.rspReady = t.edge.rspReady)
    (hidle : s.phase = .idle → s.edge.rst = false → s.edge.reqValid = false ∧ t.edge.reqValid = false) :
    step s = step t := by
  have hphase : s.phase = t.phase := by simpa using congrArg State.phase hadvance
  have hreq : s.req = t.req := by simpa using congrArg State.req hadvance
  have hwait : s.wait = t.wait := by simpa using congrArg State.wait hadvance
  have hfault := State.readFault_eq_of_advance_eq hadvance hrst hreads
  cases hf : s.readFault with
  | some f => rw [step_fault s f hf, step_fault t f (hfault ▸ hf)]
  | none =>
    have hft : t.readFault = none := hfault ▸ hf
    cases hr : s.edge.rst with
    | true => rw [step_reset s hf hr, step_reset t hft (hrst ▸ hr), hadvance]
    | false =>
      have hrt : t.edge.rst = false := hrst ▸ hr
      cases hp : s.phase with
      | idle =>
        obtain ⟨hvs, hvt⟩ := hidle hp hr
        rw [step_idle s hf hr hp, step_idle t hft hrt (hphase ▸ hp), State.idleEdge_of_not_reqValid hvs,
          State.idleEdge_of_not_reqValid hvt, hadvance]
      | busy =>
        have hpt : t.phase = .busy := hphase ▸ hp
        cases hw : s.wait with
        | zero => rw [step_complete s hf hr hp hw, step_complete t hft hrt hpt (hwait ▸ hw), hadvance, hreq]
        | succ left =>
          rw [step_busy s left hf hr hp hw, step_busy t left hft hrt hpt (hwait ▸ hw), State.busyEdge,
            State.busyEdge, hadvance]
      | done =>
        rw [step_done s hf hr hp, step_done t hft hrt (hphase ▸ hp), State.doneEdge, State.doneEdge, hready,
          hadvance]

end RequestPort

/-- Settles O35: once the coming edge has passed, nothing of the request port is left in the state. -/
theorem requestPortIsSampledOnlyAtAcceptance : Obligations.RequestPortIsSampledOnlyAtAcceptance := by
  intro s e e' rest hrst hready hreads hidle
  exact ⟨step_eq_of_advance_eq rfl hrst hreads hready hidle, fun t => reset_or_completes_of_rsp_ne⟩

/-! ### Runs of edges -/

/-- A run begins with a step. -/
theorem run_succ_of_step (h : step s = .next t) (k : Nat) : core.run (k + 1) s = core.run k t := by
  have hcore : core.step s = .next t := h
  simp only [Host.Core.run, hcore]

/-- A run that answers a state began with a step that did. -/
theorem exists_step_of_run_succ {k : Nat} (h : core.run (k + 1) s = .next u) :
    ∃ t, step s = .next t ∧ core.run k t = .next u := by
  cases hf : s.readFault with
  | some f =>
    have hcore : core.step s = .fault f := step_fault s f hf
    simp [Host.Core.run, hcore] at h
  | none =>
    obtain ⟨t, hstep⟩ := exists_step_next hf
    exact ⟨t, hstep, run_succ_of_step hstep k ▸ h⟩

section ComingEdges

variable {k : Nat}

/-- What holds of a quiet edge and of the listed ones among the coming edges holds of the next one. -/
theorem State.edge_of_forall_take {P : Edge → Prop} (hquiet : P Edge.quiet) (h : ∀ e ∈ s.inputs.take (k + 1), P e) :
    P s.edge := by
  cases hin : s.inputs with
  | nil => simpa [State.edge, hin] using hquiet
  | cons e es => simpa [State.edge, hin] using h e (by simp [hin])

/-- What holds of the coming edges holds of those left after a step. -/
theorem forall_take_of_step {P : Edge → Prop} (hstep : step s = .next t) (h : ∀ e ∈ s.inputs.take (k + 1), P e) :
    ∀ e ∈ t.inputs.take k, P e := by
  rw [inputs_of_step hstep]
  cases hin : s.inputs with
  | nil => simp
  | cons e es => exact fun e' he' => h e' (hin ▸ List.mem_cons_of_mem e he')

theorem State.noReset.edge (h : s.noReset (k + 1)) : s.edge.rst = false :=
  State.edge_of_forall_take (P := fun e => e.rst = false) rfl h

theorem State.noReads.edge (h : s.noReads (k + 1)) : s.edge.hostReads = false :=
  State.edge_of_forall_take (P := fun e => e.hostReads = false) rfl h

theorem State.noReset.of_step (h : s.noReset (k + 1)) (hstep : step s = .next t) : t.noReset k :=
  forall_take_of_step hstep h

theorem State.noReads.of_step (h : s.noReads (k + 1)) (hstep : step s = .next t) : t.noReads k :=
  forall_take_of_step hstep h

theorem State.noReset.mono {j : Nat} (hjk : j ≤ k) (h : s.noReset k) : s.noReset j :=
  fun e he => h e (List.take_subset_take_left _ hjk he)

theorem State.noReads.mono {j : Nat} (hjk : j ≤ k) (h : s.noReads k) : s.noReads j :=
  fun e he => h e (List.take_subset_take_left _ hjk he)

end ComingEdges

/-! ### A transaction from acceptance to completion -/

/-- R185: the edges before the completing one only count the wait down. -/
theorem run_busy {k : Nat} (hp : s.phase = .busy) (hk : k ≤ s.wait) (hreset : s.noReset k) (hreads : s.noReads k) :
    core.run k s = .next { s with wait := s.wait - k, inputs := s.inputs.drop k } := by
  induction k generalizing s with
  | zero => rfl
  | succ k ih =>
    obtain ⟨left, hw⟩ : ∃ left, s.wait = left + 1 := Nat.exists_eq_add_one.mpr (by omega)
    have hstep := step_busy s left (readFault_of_not_reads s hreads.edge) hreset.edge hp hw
    have hleft : k ≤ (s.busyEdge left).wait := by
      rw [State.busyEdge_wait]
      omega
    rw [run_succ_of_step hstep, ih (s := s.busyEdge left) hp hleft (hreset.of_step hstep) (hreads.of_step hstep)]
    simp [State.busyEdge, State.advance, hw]

/-- R185: a BUSY block completes at the edge after its wait, with Op of the latched request. -/
theorem run_completes {n : Nat} (hp : s.phase = .busy) (hw : s.wait = n) (hreset : s.noReset (n + 1))
    (hreads : s.noReads (n + 1)) :
    core.run (n + 1) s =
      .next { s with phase := .done, rsp := respond s.req, wait := 0, inputs := s.inputs.drop (n + 1) } := by
  induction n generalizing s with
  | zero =>
    rw [run_succ_of_step (step_complete s (readFault_of_not_reads s hreads.edge) hreset.edge hp hw)]
    simp [Host.Core.run, State.complete, State.advance, hw]
  | succ n ih =>
    have hstep := step_busy s n (readFault_of_not_reads s hreads.edge) hreset.edge hp hw
    rw [run_succ_of_step hstep, ih (s := s.busyEdge n) hp rfl (hreset.of_step hstep) (hreads.of_step hstep)]
    simp [State.busyEdge, State.advance]

/-- Settles O32: acceptance sets the wait to LAT less one, and the BUSY edges count it down to the completing one. -/
theorem completesAfterItsLatency : Obligations.CompletesAfterItsLatency := by
  intro s hidle hvalid lat
  refine ⟨Nat.le_add_left 1 _, fun _ _ _ => rfl, fun hreset hreads => ?_⟩
  have haccept := step_accept (readFault_of_not_reads s hreads.edge) hreset.edge hidle hvalid
  have hreset := hreset.of_step haccept
  have hreads := hreads.of_step haccept
  have hlat : (s.advance.accept s.edge.request).wait + 1 = lat := rfl
  refine ⟨fun k hk hkl => ?busy, ?done⟩
  case busy =>
    obtain ⟨j, rfl⟩ := Nat.exists_eq_add_one.mpr hk
    rw [run_succ_of_step haccept, run_busy rfl (by omega) (hreset.mono (by omega)) (hreads.mono (by omega))]
    exact ⟨_, rfl, rfl⟩
  case done =>
    rw [run_succ_of_step haccept, ← hlat, run_completes rfl rfl hreset hreads]
    exact ⟨_, rfl, rfl, rfl, rfl, by simp⟩

/-! ### The response in DONE -/

/-- R186: while the host does not take the response, only the edges pass; its reads have no effect (R48). -/
theorem run_done {k : Nat} (hp : s.phase = .done) (hs : s.rsp.status ≠ statusNever) (hreset : s.noReset k)
    (hready : ∀ e ∈ s.inputs.take k, e.rspReady = false) :
    core.run k s = .next { s with inputs := s.inputs.drop k } := by
  induction k generalizing s with
  | zero => rfl
  | succ k ih =>
    have hwaits : s.edge.rspReady = false := State.edge_of_forall_take (P := fun e => e.rspReady = false) rfl hready
    have hf := State.readFault_of_rspValid (State.rspValid_eq_true_iff.mpr ⟨hp, hreset.edge⟩) hs
    have hstep : step s = .next s.advance := by
      rw [step_done s hf hreset.edge hp, State.doneEdge_of_not_rspReady hwaits]
    rw [run_succ_of_step hstep, ih (s := s.advance) hp hs (hreset.of_step hstep) (forall_take_of_step hstep hready)]
    simp [State.advance]

/-- Settles O33: RSP is presented, kept by every edge at which the host does not take it, and handed off at the one where it does. -/
theorem responseIsHeldUntilTaken : Obligations.ResponseIsHeldUntilTaken := by
  intro s hdone hstatus
  have hvalid : s.edge.rst = false → s.rspValid = true := fun hrst => State.rspValid_eq_true_iff.mpr ⟨hdone, hrst⟩
  refine ⟨fun hrst => ⟨hvalid hrst, State.rspOutputs_of_rspValid (hvalid hrst)⟩,
    fun k hreset hready => run_done hdone hstatus hreset hready, fun hrst hready => ?_⟩
  rw [step_done s (State.readFault_of_rspValid (hvalid hrst) hstatus) hrst hdone, State.doneEdge_of_rspReady hready]
  rfl

/-! ### The spacing of acceptances -/

/-- How many edges without reset bring the block back to IDLE at the earliest: those of the wait, the completing one and the hand-off (R185, R186). -/
def State.edgesToIdle (s : State) : Nat :=
  match s.phase with
  | .idle => 0
  | .busy => s.wait + 2
  | .done => 1

theorem State.edgesToIdle_of_idle (hp : s.phase = .idle) : s.edgesToIdle = 0 := by simp [State.edgesToIdle, hp]

theorem State.edgesToIdle_of_busy (hp : s.phase = .busy) : s.edgesToIdle = s.wait + 2 := by
  simp [State.edgesToIdle, hp]

theorem State.edgesToIdle_of_done (hp : s.phase = .done) : s.edgesToIdle = 1 := by simp [State.edgesToIdle, hp]

/-- No edge without reset brings IDLE nearer by more than one edge. -/
theorem edgesToIdle_le_of_step (h : step s = .next t) (hr : s.edge.rst = false) :
    s.edgesToIdle ≤ t.edgesToIdle + 1 := by
  obtain ⟨-, hrow⟩ := step_cases s t h
  rcases hrow with ⟨hrst, -⟩ | ⟨-, hidle, -⟩ | ⟨-, hidle, -⟩ | ⟨-, hbusy, hwait, rfl⟩ | ⟨-, hbusy, left, hwait, rfl⟩ |
    ⟨-, hdone, -⟩ | ⟨-, hdone, -⟩
  · simp [hr] at hrst
  · simp [State.edgesToIdle_of_idle hidle]
  · simp [State.edgesToIdle_of_idle hidle]
  · rw [State.edgesToIdle_of_busy hbusy, State.edgesToIdle_of_done (State.complete_phase _ _), hwait]
  · rw [State.edgesToIdle_of_busy hbusy, State.edgesToIdle_of_busy (s := s.busyEdge left) hbusy, hwait]
    rfl
  · simp [State.edgesToIdle_of_done hdone]
  · simp [State.edgesToIdle_of_done hdone]

/-- R184, R190: a run no longer than the way back to IDLE accepts nothing, since every edge of it begins outside IDLE. -/
theorem accepted_of_run {k : Nat} (hk : k ≤ s.edgesToIdle) (hreset : s.noReset k) (h : core.run k s = .next u) :
    u.accepted = s.accepted := by
  induction k generalizing s with
  | zero =>
    cases h
    rfl
  | succ k ih =>
    obtain ⟨t, hstep, hrun⟩ := exists_step_of_run_succ h
    have hactive : s.phase ≠ .idle := fun hidle => by
      rw [State.edgesToIdle_of_idle hidle] at hk
      omega
    have hle := edgesToIdle_le_of_step hstep hreset.edge
    calc u.accepted = t.accepted := ih (by omega) (hreset.of_step hstep) hrun
      _ = s.accepted := accepted_of_step_of_ne_idle hstep hactive

/-- Settles O34: after acceptance the block is LAT + 1 edges away from IDLE. -/
theorem acceptancesAreSpaced : Obligations.AcceptancesAreSpaced := by
  intro s t u k hidle hvalid lat hreset hstep hk hrun
  obtain ⟨hf, -⟩ := step_cases s t hstep
  have haccept := step_accept hf hreset.edge hidle hvalid
  obtain rfl : t = s.advance.accept s.edge.request := by simpa [hstep] using haccept
  exact accepted_of_run hk ((hreset.of_step hstep).mono hk) hrun

end Sys2Proof.Machine
end

section
/-! PROOFS. The request format (R60, R62, R74): packing and unpacking undo each other, and so do encoding and decoding. -/

namespace Sys2Proof

/-! ### The fields of a request -/

theorem Request.unpack_pack (r : Request) : Request.unpack r.pack = r := by
  simp only [Request.unpack, Request.pack, extractLsb'_bundle_code, extractLsb'_bundle_count,
    extractLsb'_bundle_value, extractLsb'_bundle_window]

/-- R60: the four fields cover the bundle, so no bit is lost. -/
theorem Request.pack_unpack (b : Bundle) : (Request.unpack b).pack = b := by
  apply BitVec.eq_of_getLsbD_eq
  intro p hp
  rw [Request.pack, getLsbD_bundle]
  simp only [Request.unpack, BitVec.getLsbD_extractLsb']
  split_ifs with hcode hcount hvalue
  · simp [hcode]
  · simp [show p - 2 < 5 by omega, show 2 + (p - 2) = p by omega]
  · simp [show p - 7 < 128 by omega, show 7 + (p - 7) = p by omega]
  · simp [show p - 135 < 152 by omega, show 135 + (p - 135) = p by omega]

/-- Settles O3: the positions of the four fields of any bundle, read with the request's fields. -/
theorem requestFieldPositions : Obligations.RequestFieldPositions := fun r =>
  ⟨getLsbD_bundle_code _ _ _ _, getLsbD_bundle_count _ _ _ _, getLsbD_bundle_value _ _ _ _,
    fun k _ => getLsbD_bundle_window _ _ _ _ k, fun i _ k hk => getLsbD_bundle_byte _ _ _ _ i k hk, r.unpack_pack⟩

/-! ### The operation of a request -/

/-- R62: each operation is read back from its OP value. -/
@[simp] theorem decodeRequest_request (i : Instr) : decodeRequest i.request = i := by
  cases i <;> rfl

/-- R62: the four values of OP. -/
theorem code_cases (o : Code) : o = opEncode ∨ o = opDecode ∨ o = opPeek ∨ o = opReserved := by
  revert o
  decide

/-- R62: whichever row OP selects, its instruction keeps every field. -/
@[simp] theorem request_decodeRequest (r : Request) : (decodeRequest r).request = r := by
  obtain ⟨o, a, v, w⟩ := r
  rcases code_cases o with rfl | rfl | rfl | rfl <;> rfl

/-! ### Bundles -/

theorem decodeBundle_pack (r : Request) : decodeBundle r.pack = decodeRequest r := by
  rw [decodeBundle, Request.unpack_pack]

theorem decodeBundle_encode (i : Instr) : decodeBundle (encode i) = i := by
  rw [encode, decodeBundle_pack, decodeRequest_request]

theorem encode_decodeBundle (b : Bundle) : encode (decodeBundle b) = b := by
  rw [encode, decodeBundle, request_decodeRequest, Request.pack_unpack]

/-- Settles O2: the encoder is a two-sided inverse of the decoder of bundles. -/
theorem encodeOfDecodeIsIdentity : Obligations.EncodeOfDecodeIsIdentity := by
  intro b
  refine ⟨encode_decodeBundle b, ?_⟩
  rintro i rfl
  exact (decodeBundle_encode i).symm

/-! ### Numbers -/

/-- R60, R74: a number of at most 287 bits is a request, and no request is rejected. -/
theorem decodeNumber_of_lt {w : Nat} (h : w < 2 ^ 287) :
    decodeNumber w = .ok (decodeRequest (Request.ofNumber w)) :=
  if_pos (Nat.shiftRight_eq_zero w 287 h)

theorem decodeNumber_toNat (b : Bundle) : decodeNumber b.toNat = .ok (decodeBundle b) := by
  rw [decodeNumber_of_lt b.isLt, ofNumber_toNat, decodeBundle]

/-- Settles O1: the number of a bundle decodes as the bundle does, and a bundle's encoding decodes back. -/
theorem decodeOfEncodeIsIdentity : Obligations.DecodeOfEncodeIsIdentity := by
  intro i
  rw [decodeNumber_toNat, decodeBundle_encode]

/-- Settles O6: each published bundle is the encoding of its request, hence decodes to it. -/
theorem publishedBundlesDecode : Obligations.PublishedBundlesDecode := by
  have hdecode (i : Instr) (w : Nat) (hw : (encode i).toNat = w) : decodeNumber w = .ok i :=
    hw ▸ decodeOfEncodeIsIdentity i
  exact ⟨hdecode _ _ (by decide), hdecode _ _ (by decide), hdecode _ _ (by decide), hdecode _ _ (by decide)⟩

end Sys2Proof
end

section
/-! PROOFS. The written form of a request (R75): what is assembled within the limits, and that nothing is assembled outside them. -/

namespace Sys2Proof

open Machine

theorem RequestText.assemble_of_ill_formed {t : RequestText} (h : t.wellFormed = false) : t.assemble = none := by
  simp [RequestText.assemble, h]

theorem RequestText.assemble_encode {v : Nat} (hv : v < 2 ^ 128) :
    (RequestText.encode v).assemble = some (.encode 0 (BitVec.ofNat 128 v) 0) :=
  if_pos (decide_eq_true hv)

section WindowText

variable {bs : List Byte} {avail : Option Nat} (hbytes : bs.length ≤ 19) (havail : ∀ a, avail = some a → a < 32)
include hbytes havail

/-- The limits of DECODE and PEEK texts are the same two. -/
theorem bytesFit_and_availFits : (bytesFit bs && availFits avail) = true := by
  have havailFits : availFits avail = true := by simpa [availFits, Option.all_eq_true] using havail
  exact Bool.and_eq_true_iff.mpr ⟨decide_eq_true hbytes, havailFits⟩

theorem RequestText.assemble_decode :
    (RequestText.decode bs avail).assemble = some (.decode (countOf (avail.getD bs.length)) 0 (windowOfBytes bs)) :=
  if_pos (bytesFit_and_availFits hbytes havail)

theorem RequestText.assemble_peek :
    (RequestText.peek bs avail).assemble = some (.peek (countOf (avail.getD bs.length)) 0 (windowOfBytes bs)) :=
  if_pos (bytesFit_and_availFits hbytes havail)

/-- R7, R75: the count, written or not, fits AVAIL_IN. -/
theorem toNat_countOf_avail : (countOf (avail.getD bs.length)).toNat = avail.getD bs.length := by
  apply toNat_countOf
  cases avail with
  | none => exact Nat.lt_of_le_of_lt hbytes (by decide)
  | some a => exact havail a rfl

end WindowText

/-- Settles O7: each form of text is assembled to the count and the window that its lists and numbers stand for. -/
theorem assembledRequestFields : Obligations.AssembledRequestFields := by
  refine ⟨fun t => RequestText.assemble_of_ill_formed, fun v hv => ?value, fun bs avail hbytes havail => ?list, rfl⟩
  case value => exact ⟨_, RequestText.assemble_encode hv, Nat.mod_eq_of_lt hv⟩
  case list =>
    refine ⟨_, _, RequestText.assemble_decode hbytes havail, RequestText.assemble_peek hbytes havail,
      toNat_countOf_avail hbytes havail, fun i hi => ?_⟩
    rw [byteAt_windowOfBytes bs i hi, List.getD_eq_getElem?_getD]
    split_ifs with h <;> simp [h]

end Sys2Proof
end

section
/-! PROOFS. Which instruction a completing edge runs (R51, R185). -/

namespace Sys2Proof.Machine

/-- R51, R185: the completing edge runs the decoded content of REQ, with that edge past. -/
theorem step_eq_exec {s : State} (hp : s.phase = .busy) (hw : s.wait = 0) (hr : s.edge.rst = false)
    (hread : s.edge.hostReads = false) : step s = exec (decodeRequest s.req) s.advance := by
  rw [step_complete s (readFault_of_not_reads s hread) hr hp hw, exec_eq, respond]

/-- A word of at most 287 bits is a request (log entry 14). -/
theorem decodeTableWord_of_le {nbits : Nat} (h : nbits ≤ 287) (w : Nat) :
    decodeTableWord nbits w = some (decodeRequest (Request.ofNumber (w % 2 ^ nbits))) := by
  have hlt : w % 2 ^ nbits < 2 ^ 287 :=
    Nat.lt_of_lt_of_le (Nat.mod_lt w (Nat.two_pow_pos nbits)) (Nat.pow_le_pow_right Nat.two_pos h)
  rw [decodeTableWord, decodeNumber_of_lt hlt]
  rfl

/-- Settles O27: a completing edge runs the decoded content of REQ, and a placed word (log entries 6 and 14) makes the next edge one. -/
theorem stepRunsDecodedRequest : Obligations.StepRunsDecodedRequest := by
  refine ⟨fun s hp hw hr hread => ?latched, fun s nbits w hbits => ?placed⟩
  case latched =>
    rw [step_eq_exec hp hw hr hread, decodeBundle_pack]
    rfl
  case placed =>
    refine ⟨_, decodeTableWord_of_le hbits w, ?_⟩
    rw [step_eq_exec rfl rfl rfl rfl, request_decodeRequest]
    rfl

end Sys2Proof.Machine
end
